-- ==== Sys2Proof/Word.lean ====
section
/-! DEFINITION. The widths the spec gives: the 32-bit data word and the 48-bit command word (spec 30_encoding.md R71). -/

namespace Sys2Proof

/-- A 32-bit value: the `value` field of a command, the data word, RESULT (R8, R29, R71). -/
abbrev Word := BitVec 32

/-- The one command format, 48 bits, `{op, cycles, value}` (R71). -/
abbrev CommandWord := BitVec 48

end Sys2Proof
end

