-- ==== Sys2Proof/Config.lean ====
section
/-! DEFINITION. The configuration record `Cfg` of spec 00_scope.md R7, its defaults, and the free values: constants
without a body, about which nothing can be proved. -/

namespace Sys2Proof

/-- Electrical mode of the data pin when it senses (R7 `PIN_SENSE_MODE`, R110). -/
inductive SenseMode where
  | floating
  | afInput
  deriving DecidableEq, Repr

/-- Adapter backend (R7 `BACKEND`, R100): only the shifter-backed form is specified. -/
inductive Backend where
  | shifter
  deriving DecidableEq, Repr

/-- The configuration record `Cfg` of R7. `OUT_CHUNKS(n)` is one list for each legal `n` (R8). -/
structure Cfg where
  /-- `WIDTHS`: the word widths the shifter can be configured to. -/
  widths : List Nat
  /-- `WIDTH_RESET`: the width configured by bring-up. -/
  widthReset : Nat
  /-- `CLKDIV_BITS`: the width of the divisor register. -/
  clkdivBits : Nat
  /-- `CLKDIV_RESET`: the divisor set by bring-up. -/
  clkdivReset : Word
  /-- `PIN_SENSE_MODE`. -/
  pinSenseMode : SenseMode
  /-- `CPOL`: clock polarity, read by no rule. -/
  cpol : Bool
  /-- `CPHA`: clock phase, read by no rule. -/
  cpha : Bool
  /-- `IN_PARITY_CHUNKS`: the shifts that read the 33 cycles of `sequence_in_parity`. -/
  inParityChunks : List Nat
  /-- `OUT_CHUNKS(8)`. -/
  outChunks8 : List Nat
  /-- `OUT_CHUNKS(12)`. -/
  outChunks12 : List Nat
  /-- `OUT_CHUNKS(16)`. -/
  outChunks16 : List Nat
  /-- `OUT_CHUNKS(32)`. -/
  outChunks32 : List Nat
  /-- `PAD7`: the 7 overhead bits after the parity bit of `sequence_out_parity`. -/
  pad7 : BitVec 7
  /-- `BACKEND`. -/
  backend : Backend
  deriving DecidableEq, Repr

/-- `OUT_CHUNKS(n)` for the legal `n` of `sequence_out`; there is no list for another count (R7, R8). -/
def Cfg.outChunks (cfg : Cfg) (n : Nat) : List Nat :=
  if n = 8 then cfg.outChunks8
  else if n = 12 then cfg.outChunks12
  else if n = 16 then cfg.outChunks16
  else if n = 32 then cfg.outChunks32
  else []

namespace Config

/-- `CLKDIV_RESET` is OPEN (R7, D8): any value. Entry 12. -/
opaque clkdivReset : Word

/-- `CPOL` is OPEN (R7, D20): any value, read by no rule. Entry 12. -/
opaque cpol : Bool

/-- `CPHA` is OPEN (R7, D20): any value, read by no rule. Entry 12. -/
opaque cpha : Bool

/-- The bit the target presents in the k-th sampled cycle, past the end of the fixed stream held in State: a free
input of the step (R65). Entry 6. -/
opaque freeBit : Nat → Bool

/-- Whether the k-th shift becomes ready, past the end of the list held in State: a free input of the step (R17, R97).
Entry 5. -/
opaque freeReady : Nat → Bool

/-- How many of its cycles the k-th shift clocks if it never becomes ready, past the end of the list held in State: a
free value (R97, U4). Entry 5. -/
opaque freeClocked : Nat → Nat

/-- A free value for `CARRY` after a reset (R35, U1: any value), one for each draw. Entry 13. -/
opaque freeCarry : Nat → Bool

/-- A free value for the contents of `RXBUF` (R32, U8: any value), one for each draw. Entry 14. -/
opaque freeRx : Nat → List Bool

/-- A free value for the level of the data line between commands (R32, U3), one for each draw. Entry 15. -/
opaque freeDataLevel : Nat → Bool

/-- A free value for the level of the clock line between commands (U3), one for each draw. Entry 15. -/
opaque freeClockLevel : Nat → Bool

/-- The defaults of R7, the three open parameters left open: the configuration of the reset state. Entry 11. -/
def cfg : Cfg where
  widths := [4, 5, 6, 7, 8, 9, 10, 11, 12, 13, 14, 15, 16]
  widthReset := 8
  clkdivBits := 32
  clkdivReset := clkdivReset
  pinSenseMode := .floating
  cpol := cpol
  cpha := cpha
  inParityChunks := [8, 8, 8, 5, 4]
  outChunks8 := [8]
  outChunks12 := [8, 4]
  outChunks16 := [8, 8]
  outChunks32 := [8, 8, 8, 8]
  pad7 := 0
  backend := .shifter

end Config

end Sys2Proof
end

