-- ==== Sys2Proof/Syntax.lean ====
section
/-! DEFINITION. The instructions: one constructor for each row of spec/opcode_table.json. The first six are the
commands of the upstream port (30_encoding.md R70), the last six the micro-ops of the inner interface (R74). An
operand the spec ignores (R72) is no field here. `cycles` and `n` are natural numbers, as R72 allows (entry 21). -/

namespace Sys2Proof

/-- One instruction: a command (R70, R73) or a micro-op (R74). The call trace is a list of micro-ops. -/
inductive Instr where
  /-- `sequence_in(cycles)`, R121. -/
  | sequenceIn (cycles : Nat)
  /-- `sequence_in_parity(cycles)`, R125. -/
  | sequenceInParity (cycles : Nat)
  /-- `sequence_out(value, cycles)`, R130. -/
  | sequenceOut (value : Word) (cycles : Nat)
  /-- `sequence_out_parity(value, cycles)`, R134. -/
  | sequenceOutParity (value : Word) (cycles : Nat)
  /-- `init()`, R152. -/
  | init
  /-- `set_divisor(value)`, R154. -/
  | setDivisor (value : Word)
  /-- `shift_in(n)`, R92. -/
  | shiftIn (n : Nat)
  /-- `shift_out(b, n)`, R93. -/
  | shiftOut (b : Word) (n : Nat)
  /-- `drain()`, R94. -/
  | drain
  /-- `set_div(v)`, R95. -/
  | setDiv (v : Word)
  /-- `drive()`, R111. -/
  | drive
  /-- `sense()`, R112. -/
  | sense
  deriving DecidableEq, Repr

/-- The six commands accepted on the upstream port (R70, R73, R75). -/
def Instr.isCommand : Instr → Bool
  | .sequenceIn _ => true
  | .sequenceInParity _ => true
  | .sequenceOut _ _ => true
  | .sequenceOutParity _ _ => true
  | .init => true
  | .setDivisor _ => true
  | .shiftIn _ => false
  | .shiftOut _ _ => false
  | .drain => false
  | .setDiv _ => false
  | .drive => false
  | .sense => false

/-- The cycles a micro-op asks of the adapter (R55: "the sum of n over the `shift_in(n)` and `shift_out(b, n)`
entries of the call trace"); a command is no entry of a call trace and counts 0. -/
def Instr.requestedCycles : Instr → Nat
  | .shiftIn n => n
  | .shiftOut _ n => n
  | .sequenceIn _ => 0
  | .sequenceInParity _ => 0
  | .sequenceOut _ _ => 0
  | .sequenceOutParity _ _ => 0
  | .init => 0
  | .setDivisor _ => 0
  | .drain => 0
  | .setDiv _ => 0
  | .drive => 0
  | .sense => 0

end Sys2Proof
end

