-- ==== Sys2Proof/Machine/State.lean ====
section
/-! DEFINITION. The state of the block (spec 10_state.md), plain data: the session record `S` (R20), the registers
of the ports (R29, R30), the hidden state (R32), the capability table (R150), the three traces (R54, R55), and the
parameters of the step (R17), which a step that takes a state only must find there: the configuration, and the inputs
of the environment held as lists (R65, R97). -/

namespace Sys2Proof.Machine

/-- The direction flag and the mode of a wire cycle (R21, R54). -/
inductive Dir where
  | sense
  | drive
  deriving DecidableEq, Repr

/-- The encoding `SENSE` = 0, `DRIVE` = 1 (R21). -/
def Dir.code : Dir → BitVec 1
  | .sense => 0
  | .drive => 1

/-- The causes of a fatal (R171); codes 6 and 7 are never produced. -/
inductive Cause where
  /-- No fatal since reset. -/
  | noFatal
  /-- Illegal `cycles` (R173). -/
  | cycles
  /-- `sequence_in_parity` with no valid carry (R174). -/
  | carry
  /-- A shift count outside `WIDTHS` (R175). -/
  | width
  /-- `op` is no command (R75). -/
  | illegalOp
  /-- A command other than `init` before bring-up (R176). -/
  | notBound
  deriving DecidableEq, Repr

/-- The 3-bit codes of R171. -/
def Cause.code : Cause → BitVec 3
  | .noFatal => 0
  | .cycles => 1
  | .carry => 2
  | .width => 3
  | .illegalOp => 4
  | .notBound => 5

/-- The electrical mode of the data pin (R32, R110). -/
inductive PinMode where
  /-- Push-pull driven output, alternate function. -/
  | pushPull
  /-- Input, in the mode of `PIN_SENSE_MODE`. -/
  | input (mode : SenseMode)
  deriving DecidableEq, Repr

/-- One physical cycle on the wire, `CYC(mode, bit)` (R54). -/
structure Cyc where
  mode : Dir
  bit : Bool
  deriving DecidableEq, Repr

/-- An event of the config trace (R55). -/
inductive ConfigEvent where
  | reconfPin (mode : Dir)
  | reconfWidth (n : Nat)
  | reconfDiv (v : Word)
  | drained
  deriving DecidableEq, Repr

/-- An entry of the capability table (R150). -/
inductive Primitive where
  | sequenceIn
  | sequenceInParity
  | sequenceOut
  | sequenceOutParity
  deriving DecidableEq, Repr

/-- The four entries in slot order 0 to 3 (R150, R50). -/
def capabilityTable : List Primitive := [.sequenceIn, .sequenceInParity, .sequenceOut, .sequenceOutParity]

/-- The value a call returns, as the sum type R29 allows, with the bits of `shift_in` (R92) and the report of a
refused command (R177). The model's own field, entry 17. -/
inductive Reply where
  /-- Nothing returned yet: after reset, or the command hangs (R180). -/
  | pending
  /-- Completed, returns nothing. -/
  | unit
  /-- `sequence_in` returned an ACK (R121). -/
  | ack (value : BitVec 3)
  /-- `sequence_in_parity` returned a word and `parity_error` (R125). -/
  | data (value : Word) (parityError : Bool)
  /-- `shift_in` returned its bits (R92). -/
  | bits (value : Word)
  /-- Ended in a fatal (R172). -/
  | fatal (cause : Cause)
  /-- Refused because of the earlier fatal, reported again (R177). -/
  | refused (cause : Cause)
  deriving DecidableEq, Repr

/-- What the outside presents to the block (entry 4). -/
inductive Input where
  /-- A word on the upstream command port (R71). -/
  | command (w : CommandWord)
  /-- A word on the inner interface (R74), for a caller to whom the adapter is exposed (R96, R99). -/
  | microOp (w : CommandWord)
  /-- The hardware reset input (R200). -/
  | reset
  deriving DecidableEq, Repr

/-- The environment's answer to one shift (R97): it becomes ready, or it never does after having clocked some of
its cycles (any number from 0 to all of them, U4). -/
inductive ShiftEnv where
  | ready
  | never (clocked : Nat)
  deriving DecidableEq, Repr

/-- The session record `S` (R20). -/
structure Session where
  /-- `DIR` (R21). -/
  dir : Dir
  /-- `WIDTH`, 5 bits (R22). -/
  width : BitVec 5
  /-- `CARRY` (R23). -/
  carry : Bool
  /-- `CARRY_VALID` (R24). -/
  carryValid : Bool
  /-- `CLKDIV` (R26). -/
  clkdiv : Word
  /-- `BOUND` (R27). -/
  bound : Bool
  /-- `FAULTED` (R28). -/
  faulted : Bool
  /-- `CAUSE` (R28). -/
  cause : Cause
  /-- `FAULT_CMD` (R28). -/
  faultCmd : CommandWord
  /-- `RESULT` (R29). -/
  result : Word
  /-- `PERR` (R29, R31). -/
  perr : Bool
  deriving DecidableEq, Repr

/-- The whole state of the machine. -/
structure State where
  /-- `Cfg` (R7), a parameter of the step (R17): any configuration, written by no step (entry 19). -/
  cfg : Cfg
  /-- The session record `S` (R20). -/
  session : Session
  /-- `CMD`, the command word presented (R29). -/
  cmd : CommandWord
  /-- `BUSY`: 1 from the acceptance of a command to its end, never cleared if it hangs (R29). -/
  busy : Bool
  /-- `UPC`: micro-ops of the command that have ended (R30). -/
  upc : Nat
  /-- What the last call returned (entry 17). -/
  reply : Reply
  /-- The real electrical mode of the data pin (R32). -/
  pin : PinMode
  /-- The word width programmed into the shifter (R32). -/
  shifterWidth : BitVec 5
  /-- `RXBUF`, the shifter's receive buffer (R32). -/
  rxbuf : List Bool
  /-- The level of the data line between commands (R32, U3). -/
  lineData : Bool
  /-- The level of the clock line between commands (U3). -/
  lineClock : Bool
  /-- The capability table handed to the Debug Port object (R150); empty before bring-up. -/
  slots : List Primitive
  /-- The wire trace, in time order (R54). -/
  wire : List Cyc
  /-- The call trace (R55): micro-ops as called. -/
  calls : List Instr
  /-- The config trace (R55). -/
  config : List ConfigEvent
  /-- What the outside presents next, oldest first (entry 4). -/
  inputs : List Input
  /-- The bits the target presents next, the fixed stream of R66 (entry 6). -/
  target : List Bool
  /-- The readiness of the next shifts (R97), oldest first (entry 5). -/
  shifts : List ShiftEnv
  /-- Bits sampled so far: the index of a free bit of the target past `target` (entry 6). -/
  sampled : Nat
  /-- Shifts begun so far: the index of the free readiness of a shift past `shifts` (entry 5). -/
  polled : Nat
  /-- Free values drawn so far (entry 14). -/
  draws : Nat
  deriving DecidableEq, Repr

/-- Why the machine stops with a fault. -/
inductive Fault where
  /-- Raised by fetching when a word on the inner interface is none of the six micro-ops of R74: the spec gives such
  a word no meaning there. Safe: the model stops (entry 8). -/
  | notAMicroOp (w : CommandWord)
  deriving DecidableEq, Repr

/-- Why the machine refuses to go on. -/
inductive Refusal where
  /-- An instruction without a meaning, by its mnemonic. Raised by no arm of this model. Safe. -/
  | notModelled (mnemonic : String)
  /-- Raised by fetching: a word is presented while BUSY = 1, which has no defined behaviour (R210, U2). Safe
  (entry 25). -/
  | presentedWhileBusy
  /-- Raised by the meaning of `shift_in` while DIR = DRIVE, which R99 says a model must refuse (U7). Safe
  (entry 9). -/
  | shiftInWhileDriving
  /-- Raised by the meaning of `shift_out` while DIR = SENSE, which R99 says a model must refuse (U7). Safe
  (entry 9). -/
  | shiftOutWhileSensing
  /-- Raised by fetching: the configuration is ill formed, which R175 and U6 say a model should refuse. Safe
  (entry 11). -/
  | illFormedConfiguration
  deriving DecidableEq, Repr

/-- `STATUS = {CAUSE[2:0], FAULTED, BUSY}` (R29, R79). -/
def State.status (s : State) : BitVec 5 :=
  s.session.cause.code ++ BitVec.ofBool s.session.faulted ++ BitVec.ofBool s.busy

/-- The bit the target presents in the i-th cycle sampled from this state on: the fixed stream of R66, and past its
end a free value (R65). -/
def State.oracle (s : State) (i : Nat) : Bool :=
  (s.target[i]?).getD (Config.freeBit (s.sampled + i))

/-- Whether the i-th shift from this state on becomes ready: as the list says, and past its end a free value (R17,
R97). -/
def State.readiness (s : State) (i : Nat) : ShiftEnv :=
  (s.shifts[i]?).getD
    (if Config.freeReady (s.polled + i) then .ready else .never (Config.freeClocked (s.polled + i)))

/-- The session after reset: the "after reset" column of R35. `carry` is unspecified there (entry 13); `clkdiv` has
`CLKDIV_BITS` bits (R26), so `CLKDIV_RESET` is cut to them (entry 30). -/
def Session.reset (cfg : Cfg) (carry : Bool) : Session where
  dir := .sense
  width := BitVec.ofNat 5 cfg.widthReset
  carry := carry
  carryValid := false
  clkdiv := (cfg.clkdivReset.setWidth cfg.clkdivBits).setWidth 32
  bound := false
  faulted := false
  cause := .noFatal
  faultCmd := 0
  result := 0
  perr := false

/-- The machine of a configuration right after reset (R35, R200, R201): idle, waiting for a command. -/
def State.resetWith (cfg : Cfg) : State where
  cfg := cfg
  session := Session.reset cfg (Config.freeCarry 0)
  cmd := 0
  busy := false
  upc := 0
  reply := .pending
  pin := .input cfg.pinSenseMode
  shifterWidth := BitVec.ofNat 5 cfg.widthReset
  rxbuf := Config.freeRx 0
  lineData := Config.freeDataLevel 0
  lineClock := Config.freeClockLevel 0
  slots := []
  wire := []
  calls := []
  config := []
  inputs := []
  target := []
  shifts := []
  sampled := 0
  polled := 0
  draws := 1

/-- The machine right after reset, with the defaults of R7 (entry 11). -/
def State.reset : State := State.resetWith Config.cfg

end Sys2Proof.Machine
end

