-- ==== Sys2Proof/Machine/Flags.lean ====
section
/-! DEFINITION. The one flag computation of the block: even parity (spec 42_sequence_engine.md R140, R125, R134). -/

namespace Sys2Proof.Machine

/-- The number of set bits of a 32-bit value (R140). -/
def popCount (v : Word) : Nat := ((List.range 32).filter (fun i => v.getLsbD i)).length

/-- `parity32(v)`: the number of set bits modulo 2, 1 when it is odd (R140). -/
def parity32 (v : Word) : Bool := decide (popCount v % 2 = 1)

/-- `parity_error`: the parity of the reassembled word differs from the received parity bit (R125, R79). -/
def parityError (v : Word) (p : Bool) : Bool := parity32 v != p

end Sys2Proof.Machine
end

