-- ==== Sys2Proof/Machine/Operands.lean ====
section
/-! DEFINITION. The operand forms: which counts are legal (spec 00_scope.md R8, 60_exceptions.md R173), how bits are
cut into chunks and put together (30_encoding.md R77, 20_memory.md R52, R53), and where the fields of a read lie
(42_sequence_engine.md R121, R125, R134, R141). -/

namespace Sys2Proof.Machine

/-- The legal `cycles` of `sequence_out` (R8, R130). -/
def outCycles : List Nat := [8, 12, 16, 32]

/-- Bits in time order as a word, the first one in bit 0, the rest zero (R52, R92). -/
def bitsToWord : List Bool → Word
  | [] => 0
  | b :: bs => (bitsToWord bs <<< 1) ||| (BitVec.ofBool b).setWidth 32

/-- `(x >> o) mod 2^w`: the chunk of `w` bits at offset `o` (R77). -/
def chunkAt (x : Word) (o w : Nat) : Word := (x.extractLsb' o w).setWidth 32

/-- The shifts that send `x` in chunks of the given widths from offset `o` on (R77): what is presented, and the
count. -/
def outShifts (x : Word) : Nat → List Nat → List (Word × Nat)
  | _, [] => []
  | o, w :: ws => (chunkAt x o w, w) :: outShifts x (o + w) ws

/-- `t | (r << o)`: one received chunk put at its offset; `t` is 33 bits wide (R77, R125). -/
def insertChunk (t : BitVec 33) (r : Word) (o : Nat) : BitVec 33 := t ||| (r.setWidth 33 <<< o)

/-- The count of the ACK read: 4 with a valid carry, else 5 (R121). -/
def ackCycles (carryValid : Bool) : Nat := if carryValid then 4 else 5

/-- The ACK: `r[2:0]` of a 4-cycle read, `r[3:1]` of a 5-cycle read (R121). -/
def ackOf (carryValid : Bool) (r : Word) : BitVec 3 := if carryValid then r.extractLsb' 0 3 else r.extractLsb' 1 3

/-- The new carry: `r[3]` of a 4-cycle read, `r[4]` of a 5-cycle read (R121). -/
def ackCarry (carryValid : Bool) (r : Word) : Bool := if carryValid then r.getLsbD 3 else r.getLsbD 4

/-- `{ t[30:0], CARRY }` (R125). -/
def dataWord (t : BitVec 33) (carry : Bool) : Word := t.extractLsb' 0 31 ++ BitVec.ofBool carry

/-- `t[31]`, the received parity bit (R125); `t[32]`, the trailing turnaround, is not read. -/
def receivedParity (t : BitVec 33) : Bool := t.getLsbD 31

/-- The fifth byte of `sequence_out_parity`, `{PAD7, p}` (R134). -/
def parityByte (cfg : Cfg) (v : Word) : Word := (cfg.pad7 ++ BitVec.ofBool (parity32 v)).setWidth 32

/-- The five shifts of `sequence_out_parity`: the four bytes low to high, then `{PAD7, p}` (R134). -/
def parityShifts (cfg : Cfg) (v : Word) : List (Word × Nat) :=
  outShifts v 0 [8, 8, 8, 8] ++ [(parityByte cfg v, 8)]

/-- `v[CLKDIV_BITS-1:0]`, held in a 32-bit value: the divisor register (R26) and the operand of `set_divisor` (R72,
R154). That it is also how a `set_div` word and `CLKDIV_RESET` are read is the model's choice (entry 30). -/
def divisorOf (cfg : Cfg) (v : Word) : Word := (v.setWidth cfg.clkdivBits).setWidth 32

end Sys2Proof.Machine
end

