-- ==== Sys2Proof/WellFormed.lean ====
section
/-! DEFINITION. What can be encoded (the 8-bit `cycles` field of 30_encoding.md R71, R72), and which configurations
are well formed (00_scope.md R7). An illegal `cycles` value is not ill formed: it is a fatal at execution (R76). -/

namespace Sys2Proof

/-- An instruction the 48-bit word can spell: its count fits the 8-bit `cycles` field, 0 to 255 (R71, R72, R74). -/
def Instr.wf : Instr → Bool
  | .sequenceIn cycles => decide (cycles < 256)
  | .sequenceInParity cycles => decide (cycles < 256)
  | .sequenceOut _ cycles => decide (cycles < 256)
  | .sequenceOutParity _ cycles => decide (cycles < 256)
  | .init => true
  | .setDivisor _ => true
  | .shiftIn n => decide (n < 256)
  | .shiftOut _ n => decide (n < 256)
  | .drain => true
  | .setDiv _ => true
  | .drive => true
  | .sense => true

/-- Every element of a chunk list is a width of the shifter and the list sums to `total` (R7). -/
def Cfg.chunksOk (cfg : Cfg) (chunks : List Nat) (total : Nat) : Bool :=
  chunks.all (fun w => decide (w ∈ cfg.widths)) && decide (chunks.sum = total)

/-- Well-formedness of `Cfg`: the conditions of R7, and the two register sizes (entry 18): a width fits the 5-bit
`WIDTH` (R22) and a divisor fits the 32-bit `value` field (R72). -/
def Cfg.wf (cfg : Cfg) : Bool :=
  cfg.chunksOk cfg.inParityChunks 33 && cfg.chunksOk cfg.outChunks8 8 && cfg.chunksOk cfg.outChunks12 12
    && cfg.chunksOk cfg.outChunks16 16 && cfg.chunksOk cfg.outChunks32 32
    && decide (4 ∈ cfg.widths) && decide (5 ∈ cfg.widths) && decide (8 ∈ cfg.widths)
    && decide (cfg.widthReset ∈ cfg.widths)
    && cfg.widths.all (fun w => decide (w < 32)) && decide (cfg.clkdivBits ≤ 32)

end Sys2Proof
end

