-- ==== Sys2Proof/Machine/Ops.lean ====
section
/-! DEFINITION. The named operations every meaning is built from: the wire (spec 20_memory.md), the Bit-Shifter
Adapter (40), the Direction Controller (41), a command's end, a fatal (60), reset (70). -/

namespace Sys2Proof.Machine

/-! ### Traces and micro-op bookkeeping (R30, R55) -/

/-- Record a micro-op in the call trace as it is called, whether or not it turns out a no-op (R55). -/
def issue (op : Instr) (s : State) : State := { s with calls := s.calls ++ [op] }

/-- A micro-op has ended: `UPC` advances by exactly 1 (R30). -/
def retire (s : State) : State := { s with upc := s.upc + 1 }

/-- `emit e` for an event of the config trace (R55). -/
def emit (e : ConfigEvent) (s : State) : State := { s with config := s.config ++ [e] }

/-! ### The wire (R54) -/

/-- `WireIn()`: one cycle in SENSE mode; the target's bit is returned and put on the wire trace (R54, R65). -/
def wireIn (s : State) : Bool × State :=
  (s.oracle 0,
    { s with target := s.target.drop 1, sampled := s.sampled + 1, wire := s.wire ++ [⟨.sense, s.oracle 0⟩] })

/-- `WireOut(b)`: one cycle in DRIVE mode presenting `b` (R54). -/
def wireOut (b : Bool) (s : State) : State := { s with wire := s.wire ++ [⟨.drive, b⟩] }

/-- `n` cycles of `WireIn()`, the bits in time order (R92). -/
def sampleBits : Nat → State → List Bool × State
  | 0, s => ([], s)
  | n + 1, s =>
    let first := wireIn s
    let rest := sampleBits n first.2
    (first.1 :: rest.1, rest.2)

/-- `WireOut(b[i])`, `WireOut(b[i+1])`, ..., `n` cycles (R93). -/
def presentBits (b : Word) : Nat → Nat → State → State
  | _, 0, s => s
  | i, n + 1, s => presentBits b (i + 1) n (wireOut (b.getLsbD i) s)

/-! ### The Bit-Shifter Adapter (R90 to R97) -/

/-- Width reconfiguration: only when the count differs from `WIDTH` (R91). -/
def reconfWidth (n : Nat) (s : State) : State :=
  if s.session.width = BitVec.ofNat 5 n then s
  else
    { emit (.reconfWidth n) s with
      session.width := BitVec.ofNat 5 n
      shifterWidth := BitVec.ofNat 5 n }

/-- A shift, and bring-up, leave the receive buffer with contents the spec does not give (R32, R35, U8): a free value
(entry 14). -/
def clobberRx (s : State) : State := { s with rxbuf := Config.freeRx s.draws, draws := s.draws + 1 }

/-- The shift has taken its readiness input (R97). -/
def takeShift (s : State) : State := { s with shifts := s.shifts.drop 1, polled := s.polled + 1 }

/-- What every legal shift does before its cycles: it is called, the width is reconfigured, the readiness is taken, in
the order of R91 to R93. So a shift that hangs has reconfigured the width: vector I5 and R120 say so, against the words of
R180 (entry 31). -/
def beginShift (op : Instr) (n : Nat) (s : State) : State := takeShift (clobberRx (reconfWidth n (issue op s)))

/-- How a micro-op or a list of them ends (R12). -/
inductive Progress (α : Type) where
  /-- It ends, returning a value. -/
  | done (a : α) (s : State)
  /-- A shift never becomes ready (R180). -/
  | hung (s : State)
  /-- It raises a fatal (R96). -/
  | fatal (c : Cause) (s : State)

/-- `shift_in(n)` (R92, R96, R97): `n` cycles sampled, returned right-aligned with the first bit in bit 0. A shift
that never becomes ready has clocked some of its cycles, at most `n` (R97, U4). With a count outside `WIDTHS` it has
been called (R55) and does nothing else. -/
def shiftIn (n : Nat) (s : State) : Progress Word :=
  if n ∈ s.cfg.widths then
    match s.readiness 0 with
    | .ready =>
      let out := sampleBits n (beginShift (.shiftIn n) n s)
      .done (bitsToWord out.1) (retire out.2)
    | .never k => .hung (sampleBits (min k n) (beginShift (.shiftIn n) n s)).2
  else .fatal .width (issue (.shiftIn n) s)

/-- `shift_out(b, n)` (R93, R96, R97): `n` cycles presenting `b[0]`, `b[1]`, ... -/
def shiftOut (b : Word) (n : Nat) (s : State) : Progress Unit :=
  if n ∈ s.cfg.widths then
    match s.readiness 0 with
    | .ready => .done () (retire (presentBits b 0 n (beginShift (.shiftOut b n) n s)))
    | .never k => .hung (presentBits b 0 (min k n) (beginShift (.shiftOut b n) n s))
  else .fatal .width (issue (.shiftOut b n) s)

/-- `drain()`: the receive buffer is empty afterwards (R94, R64). -/
def drain (s : State) : State := retire { emit .drained (issue .drain s) with rxbuf := [] }

/-- `set_div(v)`: the event is emitted even when the divisor does not change (R95). DESIGN CHOICE: bits of a `set_div`
word's `value` field above `CLKDIV_BITS` are dropped, in `CLKDIV`, in the event and in the call trace (entry 30). -/
def setDiv (v : Word) (s : State) : State :=
  retire { emit (.reconfDiv (divisorOf s.cfg v)) (issue (.setDiv (divisorOf s.cfg v)) s) with
    session.clkdiv := divisorOf s.cfg v }

/-! ### The Direction Controller (R110 to R113) -/

/-- Put the pin in output mode and the flag with it (R111). -/
def pinToDrive (s : State) : State :=
  { emit (.reconfPin .drive) s with pin := .pushPull, session.dir := .drive }

/-- Put the pin in input mode and the flag with it (R112, R152). -/
def pinToSense (s : State) : State :=
  { emit (.reconfPin .sense) s with pin := .input s.cfg.pinSenseMode, session.dir := .sense }

/-- `drive()`: a no-op in DRIVE mode, recorded all the same (R111). -/
def drive (s : State) : State :=
  retire (if s.session.dir = .drive then issue .drive s else pinToDrive (issue .drive s))

/-- `sense()`: a no-op in SENSE mode, recorded all the same (R112). -/
def sense (s : State) : State :=
  retire (if s.session.dir = .sense then issue .sense s else pinToSense (issue .sense s))

/-! ### Lists of shifts (R77, R125, R130, R134) -/

/-- The read loop of R125: `t <- t | (shift_in(w_k) << o_k)` over the chunk widths. -/
def readChunks : List Nat → Nat → BitVec 33 → State → Progress (BitVec 33)
  | [], _, t, s => .done t s
  | w :: ws, o, t, s =>
    match shiftIn w s with
    | .done r s' => readChunks ws (o + w) (insertChunk t r o) s'
    | .hung s' => .hung s'
    | .fatal c s' => .fatal c s'

/-- The shifts of an out-class primitive, in order (R130, R134). -/
def writeShifts : List (Word × Nat) → State → Progress Unit
  | [], s => .done () s
  | x :: xs, s =>
    match shiftOut x.1 x.2 s with
    | .done _ s' => writeShifts xs s'
    | .hung s' => .hung s'
    | .fatal c s' => .fatal c s'

/-! ### How a command ends (R12, R29, R120, R172, R177, R180) -/

/-- A call has ended: `BUSY` is 0 and the caller has the reply (R29). Between commands the levels of the lines are
any value (R32, U3). -/
def finish (r : Reply) (s : State) : State :=
  { s with
    busy := false
    reply := r
    lineData := Config.freeDataLevel s.draws
    lineClock := Config.freeClockLevel s.draws
    draws := s.draws + 1 }

/-- TAKING A FATAL, `raise Fatal(cause)` (R172): the cause and the word being executed are latched, nothing else of
`S` is written, and control returns to the caller. There is no return from it: only reset clears it (R177). -/
def raiseFatal (c : Cause) (s : State) : State :=
  finish (.fatal c)
    { s with
      session.faulted := true
      session.cause := c
      session.faultCmd := s.cmd }

/-- A command in a faulted session is refused: no field of `S` changes, no micro-op is issued, no cycle is clocked,
and the fatal is reported again (R177). -/
def refuseFaulted (s : State) : State := finish (.refused s.session.cause) s

/-- A hang: `BUSY` stays 1 and there is no result (R180). `WIDTH` is as the hung shift left it (entry 31). -/
def hang (s : State) : State := { s with busy := true, reply := .pending }

/-- The end of a command whose micro-ops have run: its last writes are made only if they all ended (R120). -/
def settle {α : Type} (p : Progress α) (commit : α → State → State) : State :=
  match p with
  | .done a s => commit a s
  | .hung s => hang s
  | .fatal c s => raiseFatal c s

/-! ### The dispatcher's checks (R176) -/

/-- Step 1 of R176: nothing runs in a faulted session (R177, R182). -/
def unlessFaulted (s : State) (body : State → Host.Outcome State Fault Refusal) :
    Host.Outcome State Fault Refusal :=
  if s.session.faulted then .next (refuseFaulted s) else body s

/-- Steps 1 and 3 of R176: a command other than `init` needs `BOUND` = 1. -/
def whenBound (s : State) (body : State → Host.Outcome State Fault Refusal) : Host.Outcome State Fault Refusal :=
  unlessFaulted s fun s => if s.session.bound then body s else .next (raiseFatal .notBound s)

/-- Steps 1 and 2 of R176 for a word whose `op` is no command (R75). -/
def rejectOp (s : State) : State := if s.session.faulted then refuseFaulted s else raiseFatal .illegalOp s

/-! ### The last writes of each primitive (R120 step 4) -/

/-- The end of `sequence_in` (R121): `cv` is the carry flag it started with, `r` the shift's result. -/
def commitAck (cv : Bool) (r : Word) (s : State) : State :=
  finish (.ack (ackOf cv r))
    { s with
      session.carry := ackCarry cv r
      session.carryValid := true
      session.result := (ackOf cv r).setWidth 32
      session.perr := false }

/-- The end of `sequence_in_parity` (R125): `t` holds the 33 bits read. `CARRY` is read and left unchanged. -/
def commitData (t : BitVec 33) (s : State) : State :=
  finish
    (.data (dataWord t s.session.carry) (parityError (dataWord t s.session.carry) (receivedParity t)))
    { s with
      session.carryValid := false
      session.result := dataWord t s.session.carry
      session.perr := parityError (dataWord t s.session.carry) (receivedParity t) }

/-- The end of an out-class primitive: the carry is invalidated unconditionally (R130, R134). -/
def commitOut (s : State) : State := finish .unit { s with session.carryValid := false }

/-! ### The ports and the reset input (R29, R200) -/

/-- A word is accepted: it is in `CMD`, `BUSY` is 1, `UPC` is 0, and there is no reply yet (R29, R30). -/
def accept (w : CommandWord) (rest : List Input) (s : State) : State :=
  { s with inputs := rest, cmd := w, busy := true, upc := 0, reply := .pending }

/-- The hardware reset input (R200): every field takes its reset value and the traces are emptied. The parameters of
the step (R17: the configuration, the coming inputs, the target, the readiness of shifts) are not reset (entry 22),
and what R35 leaves unspecified is drawn anew. -/
def resetInput (rest : List Input) (s : State) : State :=
  { State.resetWith s.cfg with
    session := Session.reset s.cfg (Config.freeCarry s.draws)
    rxbuf := Config.freeRx s.draws
    lineData := Config.freeDataLevel s.draws
    lineClock := Config.freeClockLevel s.draws
    inputs := rest
    target := s.target
    shifts := s.shifts
    sampled := s.sampled
    polled := s.polled
    draws := s.draws + 1 }

end Sys2Proof.Machine
end

