-- ==== Sys2Proof/Machine/Binding.lean ====
section
/-! DEFINITION. The two commands of the Debug Port Binding (spec 43_debug_port_binding.md). -/

namespace Sys2Proof.Machine

/-- The shifter width of bring-up, programmed and reported whatever it was (R152). -/
def widthToReset (s : State) : State :=
  { emit (.reconfWidth s.cfg.widthReset) s with
    session.width := BitVec.ofNat 5 s.cfg.widthReset
    shifterWidth := BitVec.ofNat 5 s.cfg.widthReset }

/-- The carry is dropped, the capability table is handed over, the session is bound (R152, R150). -/
def bindTable (s : State) : State :=
  { s with session.carryValid := false, session.bound := true, slots := capabilityTable }

/-- `init()` (R152): its three reconfigurations are unconditional, its call trace is `set_div` only, it needs no
`BOUND` and has no error path (R153). What `RXBUF` holds after it is not given (R35, entry 14). `CLKDIV_RESET` is cut to
`CLKDIV_BITS` bits (entry 30). -/
def execInit (s : State) : Host.Outcome State Fault Refusal :=
  unlessFaulted s fun s =>
    .next (finish .unit (bindTable (setDiv s.cfg.clkdivReset (widthToReset (pinToSense (clobberRx s))))))

/-- `set_divisor(value)` (R154): writes `CLKDIV` only and leaves the carry. -/
def execSetDivisor (value : Word) (s : State) : Host.Outcome State Fault Refusal :=
  whenBound s fun s => .next (finish .unit (setDiv value s))

end Sys2Proof.Machine
end

