-- ==== Sys2Proof/Machine/Direction.lean ====
section
/-! DEFINITION. The micro-ops of the Direction Controller as instructions (spec 41_direction_controller.md). -/

namespace Sys2Proof.Machine

/-- `drive()` (R111). -/
def execDrive (s : State) : Host.Outcome State Fault Refusal :=
  unlessFaulted s fun s => .next (finish .unit (drive s))

/-- `sense()` (R112). -/
def execSense (s : State) : Host.Outcome State Fault Refusal :=
  unlessFaulted s fun s => .next (finish .unit (sense s))

end Sys2Proof.Machine
end

