-- ==== Sys2Proof/Machine/Sequence.lean ====
section
/-! DEFINITION. The four primitives of the Sequence Engine (spec 42_sequence_engine.md). The preconditions of each come
before its first micro-op (R120), after the dispatcher's checks (R176). -/

namespace Sys2Proof.Machine

/-- `sequence_in(cycles)` (R121, R176). -/
def execSequenceIn (cycles : Nat) (s : State) : Host.Outcome State Fault Refusal :=
  whenBound s fun s =>
    if cycles = 3 then
      .next (settle (shiftIn (ackCycles s.session.carryValid) (sense s)) (commitAck s.session.carryValid))
    else .next (raiseFatal .cycles s)

/-- `sequence_in_parity(cycles)` (R125, R176): the count is checked before the carry. -/
def execSequenceInParity (cycles : Nat) (s : State) : Host.Outcome State Fault Refusal :=
  whenBound s fun s =>
    if cycles = 32 then
      if s.session.carryValid then .next (settle (readChunks s.cfg.inParityChunks 0 0 (sense s)) commitData)
      else .next (raiseFatal .carry s)
    else .next (raiseFatal .cycles s)

/-- `sequence_out(value, cycles)` (R130, R176): drain, drive, then the shifts (R131). -/
def execSequenceOut (value : Word) (cycles : Nat) (s : State) : Host.Outcome State Fault Refusal :=
  whenBound s fun s =>
    if cycles ∈ outCycles then
      .next (settle (writeShifts (outShifts value 0 (s.cfg.outChunks cycles)) (drive (drain s))) fun _ t => commitOut t)
    else .next (raiseFatal .cycles s)

/-- `sequence_out_parity(value, cycles)` (R134, R176): drain, drive, then the five bytes. -/
def execSequenceOutParity (value : Word) (cycles : Nat) (s : State) : Host.Outcome State Fault Refusal :=
  whenBound s fun s =>
    if cycles = 32 then
      .next (settle (writeShifts (parityShifts s.cfg value) (drive (drain s))) fun _ t => commitOut t)
    else .next (raiseFatal .cycles s)

end Sys2Proof.Machine
end

