-- ==== Sys2Proof/Machine/Shifter.lean ====
section
/-! DEFINITION. The micro-ops of the Bit-Shifter Adapter as instructions (spec 40_bit_shifter_adapter.md). -/

namespace Sys2Proof.Machine

/-- `shift_in(n)` (R92). A count outside `WIDTHS` is fatal (R96); in DRIVE mode it has no meaning and is refused
(R99). -/
def execShiftIn (n : Nat) (s : State) : Host.Outcome State Fault Refusal :=
  unlessFaulted s fun s =>
    if n ∈ s.cfg.widths ∧ s.session.dir = .drive then .refused .shiftInWhileDriving
    else .next (settle (shiftIn n s) fun r t => finish (.bits r) t)

/-- `shift_out(b, n)` (R93). A count outside `WIDTHS` is fatal (R96); in SENSE mode it has no meaning and is refused
(R99). -/
def execShiftOut (b : Word) (n : Nat) (s : State) : Host.Outcome State Fault Refusal :=
  unlessFaulted s fun s =>
    if n ∈ s.cfg.widths ∧ s.session.dir = .sense then .refused .shiftOutWhileSensing
    else .next (settle (shiftOut b n s) fun _ t => finish .unit t)

/-- `drain()` (R94). -/
def execDrain (s : State) : Host.Outcome State Fault Refusal :=
  unlessFaulted s fun s => .next (finish .unit (drain s))

/-- `set_div(v)` (R95); the bits of `v` above `CLKDIV_BITS` are dropped (entry 30). -/
def execSetDiv (v : Word) (s : State) : Host.Outcome State Fault Refusal :=
  unlessFaulted s fun s => .next (finish .unit (setDiv v s))

end Sys2Proof.Machine
end

