-- ==== Sys2Proof/Machine/Dispatch.lean ====
section
/-! DEFINITION. One arm for each instruction: a direct call of its meaning. -/

namespace Sys2Proof.Machine

def exec (i : Instr) (s : State) : Host.Outcome State Fault Refusal :=
  match i with
  | .sequenceIn cycles => Sys2Proof.Machine.execSequenceIn cycles s
  | .sequenceInParity cycles => Sys2Proof.Machine.execSequenceInParity cycles s
  | .sequenceOut value cycles => Sys2Proof.Machine.execSequenceOut value cycles s
  | .sequenceOutParity value cycles => Sys2Proof.Machine.execSequenceOutParity value cycles s
  | .init => Sys2Proof.Machine.execInit s
  | .setDivisor value => Sys2Proof.Machine.execSetDivisor value s
  | .shiftIn n => Sys2Proof.Machine.execShiftIn n s
  | .shiftOut b n => Sys2Proof.Machine.execShiftOut b n s
  | .drain => Sys2Proof.Machine.execDrain s
  | .setDiv v => Sys2Proof.Machine.execSetDiv v s
  | .drive => Sys2Proof.Machine.execDrive s
  | .sense => Sys2Proof.Machine.execSense s

end Sys2Proof.Machine
end

