-- ==== Sys2Proof/Decode.lean ====
section
/-! DEFINITION. The decoder of the 48-bit command word and the encoder, from the tables of spec 30_encoding.md
(R71 the fields, R73 the commands, R74 the micro-ops). The decoder is total on any word and rejects by name. -/

namespace Sys2Proof

/-- Bits 47:40 of the word (R71). -/
def opField (w : CommandWord) : BitVec 8 := w.extractLsb' 40 8

/-- Bits 39:32 of the word, an unsigned number 0 to 255 with no scaling (R71, R72). -/
def cyclesField (w : CommandWord) : Nat := (w.extractLsb' 32 8).toNat

/-- Bits 31:0 of the word, unsigned, no extension (R71, R72). -/
def valueField (w : CommandWord) : Word := w.extractLsb' 0 32

/-- Why a word is rejected. -/
inductive DecodeError where
  /-- `op` is no row of R73 or R74. -/
  | unknownOp (op : BitVec 8)
  /-- A micro-op value on the command port (R75). -/
  | microOpOnCommandPort (op : BitVec 8)
  /-- A command value on the inner interface (R74 gives it six micro-ops). -/
  | commandOnInnerPort (op : BitVec 8)
  deriving DecidableEq, Repr

/-- The row of R73 or R74 that a word decodes to; ignored fields are not read (R72). -/
def decode (w : CommandWord) : Except DecodeError Instr :=
  match (opField w).toNat with
  | 0x00 => .ok (.sequenceIn (cyclesField w))
  | 0x01 => .ok (.sequenceInParity (cyclesField w))
  | 0x02 => .ok (.sequenceOut (valueField w) (cyclesField w))
  | 0x03 => .ok (.sequenceOutParity (valueField w) (cyclesField w))
  | 0x04 => .ok .init
  | 0x05 => .ok (.setDivisor (valueField w))
  | 0x10 => .ok (.shiftIn (cyclesField w))
  | 0x11 => .ok (.shiftOut (valueField w) (cyclesField w))
  | 0x12 => .ok .drain
  | 0x13 => .ok (.setDiv (valueField w))
  | 0x14 => .ok .drive
  | 0x15 => .ok .sense
  | _ => .error (.unknownOp (opField w))

/-- What the upstream command port accepts: `op` 0x00 to 0x05 and nothing else (R75). -/
def decodeCommand (w : CommandWord) : Except DecodeError Instr :=
  match decode w with
  | .ok i => if i.isCommand then .ok i else .error (.microOpOnCommandPort (opField w))
  | .error e => .error e

/-- What the inner interface accepts: the six micro-ops (R74). -/
def decodeMicroOp (w : CommandWord) : Except DecodeError Instr :=
  match decode w with
  | .ok i => if i.isCommand then .error (.commandOnInnerPort (opField w)) else .ok i
  | .error e => .error e

/-- The instruction the decoder reads from a table word; bit 0 is the least significant bit of the 48-bit word. -/
def decodeTableWord (nbits w : Nat) : Option Instr :=
  match decode (BitVec.ofNat 48 (w % 2 ^ nbits)) with
  | .ok i => some i
  | .error _ => none

/-- `{op, cycles, value}` (R71). -/
def packWord (op : BitVec 8) (cycles : Nat) (value : Word) : CommandWord := op ++ BitVec.ofNat 8 cycles ++ value

/-- The `op` value of each instruction (R73, R74). -/
def opcode : Instr → BitVec 8
  | .sequenceIn _ => 0x00
  | .sequenceInParity _ => 0x01
  | .sequenceOut _ _ => 0x02
  | .sequenceOutParity _ _ => 0x03
  | .init => 0x04
  | .setDivisor _ => 0x05
  | .shiftIn _ => 0x10
  | .shiftOut _ _ => 0x11
  | .drain => 0x12
  | .setDiv _ => 0x13
  | .drive => 0x14
  | .sense => 0x15

/-- The word of an instruction, absent operands encoded as 0 (R80, R74). -/
def encode : Instr → CommandWord
  | .sequenceIn cycles => packWord 0x00 cycles 0
  | .sequenceInParity cycles => packWord 0x01 cycles 0
  | .sequenceOut value cycles => packWord 0x02 cycles value
  | .sequenceOutParity value cycles => packWord 0x03 cycles value
  | .init => packWord 0x04 0 0
  | .setDivisor value => packWord 0x05 0 value
  | .shiftIn n => packWord 0x10 n 0
  | .shiftOut b n => packWord 0x11 n b
  | .drain => packWord 0x12 0 0
  | .setDiv v => packWord 0x13 0 v
  | .drive => packWord 0x14 0 0
  | .sense => packWord 0x15 0 0

end Sys2Proof
end

