-- ==== Sys2Proof/Machine/Fetch.lean ====
section
/-! DEFINITION. How a step finds what to run: the next input of the outside world (spec 10_state.md R29, R30;
30_encoding.md R75; 60_exceptions.md R176; 70_reset_and_hazards.md R200, R210). -/

namespace Sys2Proof.Machine

/-- What the next input asks for. -/
inductive Fetched where
  /-- Nothing is presented: the block is idle, or hangs (R186, R180). -/
  | wait
  /-- A state is reached without running an instruction: the reset input, or an illegal `op`. -/
  | settled (t : State)
  /-- An instruction is accepted. -/
  | run (i : Instr) (t : State)
  /-- A word is presented while BUSY = 1 (R210). -/
  | busy
  /-- A word on the inner interface that is no micro-op (R74). -/
  | badMicroOp (w : CommandWord)
  /-- The configuration is ill formed (R175, U6). -/
  | illFormed

/-- The next input. A word on the command port is decoded after the fatal latch is looked at (R176). -/
def nextInput (s : State) : Fetched :=
  match s.inputs with
  | [] => .wait
  | .reset :: rest => .settled (resetInput rest s)
  | .command w :: rest =>
    if s.busy then .busy
    else
      match decodeCommand w with
      | .ok i => .run i (accept w rest s)
      | .error _ => .settled (rejectOp (accept w rest s))
  | .microOp w :: rest =>
    if s.busy then .busy
    else
      match decodeMicroOp w with
      | .ok i => .run i (accept w rest s)
      | .error _ => .badMicroOp w

/-- Nothing runs under an ill-formed configuration (R175, U6). -/
def fetch (s : State) : Fetched := if s.cfg.wf then nextInput s else .illFormed

/-- The input that presents a table word: a micro-op on the inner interface, any other word on the command port. -/
def inputOfWord (w : CommandWord) : Input :=
  match decodeMicroOp w with
  | .ok _ => .microOp w
  | .error _ => .command w

end Sys2Proof.Machine
end

