-- ==== Sys2Proof/Machine/Step.lean ====
section
/-! DEFINITION. One step: the next input is taken and run to its end (spec 00_scope.md R16, 20_memory.md R60). -/

namespace Sys2Proof.Machine

/-- One step. With nothing presented the state does not change: an idle block waits (R186), a hung one never ends
(R180). -/
def step (s : State) : Host.Outcome State Fault Refusal :=
  match fetch s with
  | .wait => .next s
  | .settled t => .next t
  | .run i t => exec i t
  | .busy => .refused .presentedWhileBusy
  | .badMicroOp w => .fault (.notAMicroOp w)
  | .illFormed => .refused .illFormedConfiguration

/-- The state whose next step runs the word: it is the first thing the outside presents. -/
def State.withFetchWord (s : State) (nbits w : Nat) : State :=
  { s with inputs := inputOfWord (BitVec.ofNat 48 (w % 2 ^ nbits)) :: s.inputs }

end Sys2Proof.Machine
end

