-- ==== Sys2Proof/Safety.lean ====
section
/-! DEFINITION. What the statements speak in: when a command can run and complete, the events the spec gives a run of
shifts, the cycle counts of spec 70_reset_and_hazards.md R215, and the invariant of the machine. -/

namespace Sys2Proof.Machine

/-- A primitive or `set_divisor` passes the dispatcher's checks (R176), no fatal since reset and bound, on a well-formed
configuration (R7). -/
abbrev State.canRun (s : State) : Prop :=
  s.cfg.wf = true ∧ s.session.faulted = false ∧ s.session.bound = true

/-- The next `m` shifts become ready: the assumption of every claim that a command ends (R180, R219). -/
abbrev State.readyFor (s : State) (m : Nat) : Prop := ∀ i, i < m → s.readiness i = ShiftEnv.ready

/-- The bits the target presents in the next `n` sampled cycles, in time order (R65). -/
def State.coming (s : State) (n : Nat) : List Bool := (List.range n).map s.oracle

/-- The low `n` bits of a value, bit 0 first: the order they go on the wire in (R52, R53). -/
def lowBits (v : Word) (n : Nat) : List Bool := (List.range n).map fun i => v.getLsbD i

/-- One cycle for each bit, all of one mode (R54). -/
def cyclesOf (mode : Dir) (bits : List Bool) : List Cyc := bits.map fun b => ⟨mode, b⟩

/-- The reconfiguration a direction call makes: none if the line is already in that mode (R111, R112). -/
def pinEvents (was now : Dir) : List ConfigEvent := if was = now then [] else [.reconfPin now]

/-- The reconfigurations of shifts of the given counts, starting at width `w`: one for each count that differs from
the one before it (R91). -/
def widthEvents : BitVec 5 → List Nat → List ConfigEvent
  | _, [] => []
  | w, n :: ns => (if w = BitVec.ofNat 5 n then [] else [.reconfWidth n]) ++ widthEvents (BitVec.ofNat 5 n) ns

/-- The width the shifter is left at by shifts of the given counts (R22). -/
def lastWidth : BitVec 5 → List Nat → BitVec 5
  | w, [] => w
  | _, n :: ns => lastWidth (BitVec.ofNat 5 n) ns

/-- The programmed width of the shifter after those shifts: written only where `WIDTH` is (R32, R91). -/
def lastPhysical : BitVec 5 → BitVec 5 → List Nat → BitVec 5
  | _, p, [] => p
  | w, p, n :: ns =>
    lastPhysical (BitVec.ofNat 5 n) (if w = BitVec.ofNat 5 n then p else BitVec.ofNat 5 n) ns

/-- The shifts a call makes under a configuration (R121, R125, R130, R134, R77). -/
def shiftCount (cfg : Cfg) : Instr → Nat
  | .sequenceIn _ => 1
  | .sequenceInParity _ => cfg.inParityChunks.length
  | .sequenceOut _ cycles => (cfg.outChunks cycles).length
  | .sequenceOutParity _ _ => 5
  | .init => 0
  | .setDivisor _ => 0
  | .shiftIn _ => 1
  | .shiftOut _ _ => 1
  | .drain => 0
  | .setDiv _ => 0
  | .drive => 0
  | .sense => 0

/-- The physical cycles of a completed command (the table of R215); a micro-op clocks its own count (R92, R93). -/
def physicalCycles (carryValid : Bool) : Instr → Nat
  | .sequenceIn _ => if carryValid then 4 else 5
  | .sequenceInParity _ => 33
  | .sequenceOut _ cycles => cycles
  | .sequenceOutParity _ _ => 40
  | .init => 0
  | .setDivisor _ => 0
  | .shiftIn n => n
  | .shiftOut _ n => n
  | .drain => 0
  | .setDiv _ => 0
  | .drive => 0
  | .sense => 0

/-- Calling an entry of the capability table (R150). -/
def Primitive.call (value : Word) (cycles : Nat) : Primitive → Instr
  | .sequenceIn => .sequenceIn cycles
  | .sequenceInParity => .sequenceInParity cycles
  | .sequenceOut => .sequenceOut value cycles
  | .sequenceOutParity => .sequenceOutParity value cycles

/-- The pin mode that agrees with the direction flag (R21, R110). -/
def pinOf (cfg : Cfg) : Dir → PinMode
  | .sense => .input cfg.pinSenseMode
  | .drive => .pushPull

/-- What the Debug Port object has been handed: the table exactly when `BOUND` = 1 (R27, R150). -/
def slotsOf : Bool → List Primitive
  | true => capabilityTable
  | false => []

/-- A call has completed and everything outside the session record, the traces, the pin, the shifter's width and the
values the spec leaves open (RXBUF, the line levels) is as it was, but for what was consumed: `bits` of the target,
`shifts` readiness inputs, `ops` micro-ops counted by UPC. -/
structure Completed (s t : State) (bits shifts ops : Nat) : Prop where
  idle : t.busy = false
  cmd : t.cmd = s.cmd
  slots : t.slots = s.slots
  inputs : t.inputs = s.inputs
  upc : t.upc = s.upc + ops
  target : t.target = s.target.drop bits
  sampled : t.sampled = s.sampled + bits
  polled : t.polled = s.polled + shifts
  shifts : t.shifts = s.shifts.drop shifts
  cfg : t.cfg = s.cfg

/-- The three traces are the same but for `called` in the call trace: no cycle clocked, no event emitted (R55). -/
abbrev OnlyCalled (s t : State) (called : List Instr) : Prop :=
  t.wire = s.wire ∧ t.calls = s.calls ++ called ∧ t.config = s.config

/-- The three traces are the same: no cycle clocked, no micro-op issued, no event emitted (R55). -/
abbrev SameTraces (s t : State) : Prop := t.wire = s.wire ∧ t.calls = s.calls ∧ t.config = s.config

/-- The call ended with the fatal of `cause`, and changed what R172 lets it change; `called` is the shift that raised
it, if it was one (R55: recorded as called). -/
structure Trapped (s t : State) (cause : Cause) (called : List Instr) : Prop where
  session : t.session = { s.session with faulted := true, cause := cause, faultCmd := s.cmd }
  traces : OnlyCalled s t called
  hardware : t.pin = s.pin ∧ t.shifterWidth = s.shifterWidth ∧ t.rxbuf = s.rxbuf
  reply : t.reply = .fatal cause
  completed : Completed s t 0 0 0

/-- What the spec says of every state between steps. -/
structure Inv (s : State) : Prop where
  /-- The configuration is well formed (R7, U6). -/
  cfg : s.cfg.wf = true
  /-- `DIR` equals the real electrical mode of the pin (R21, R32). -/
  pin : s.pin = pinOf s.cfg s.session.dir
  /-- The width programmed into the shifter equals `WIDTH` (R32). -/
  shifter : s.shifterWidth = s.session.width
  /-- `WIDTH` holds an element of `WIDTHS` (R22). -/
  width : s.session.width.toNat ∈ s.cfg.widths
  /-- `CLKDIV` has `CLKDIV_BITS` bits (R26). -/
  clkdiv : divisorOf s.cfg s.session.clkdiv = s.session.clkdiv
  /-- `CAUSE` and `FAULT_CMD` are 0 while `FAULTED` = 0 (R28). -/
  noFatal : s.session.faulted = false → s.session.cause = .noFatal ∧ s.session.faultCmd = 0
  /-- `CAUSE` names the fatal while `FAULTED` = 1 (R28, R171). -/
  fatal : s.session.faulted = true → s.session.cause ≠ .noFatal
  /-- The capability table is handed over exactly when `BOUND` = 1 (R27, R150). -/
  table : s.slots = slotsOf s.session.bound
  /-- A valid carry was left by a `sequence_in`, which needs `BOUND` = 1 (R24, R25). -/
  carry : s.session.carryValid = true → s.session.bound = true
  /-- A hung command is no fatal: `BUSY` = 1 and `FAULTED` = 0 (R180). -/
  hung : s.busy = true → s.session.faulted = false
  /-- The call trace holds micro-ops only (R55). -/
  calls : ∀ i ∈ s.calls, i.isCommand = false

end Sys2Proof.Machine
end

