-- ==== Sys2Proof/Certificates/Slice0/Obligations.lean ====
section
/-! DEFINITION. The statements for the provers. Every rule number is of the spec's files; "entry <n>" is
notes/assumptions/<n>.md. The fields `inputs`, `target`, `shifts`, `sampled`, `polled` and `reply` of State are the
model's own (entries 4, 5, 6, 17): a clause about one of them, alone or inside `Completed`, is the model's, not a rule's.
The configuration is any well-formed one (R7, R17): State carries it as a parameter (entry 19). That well formed also
asks for widths below 32 and at most 32 divisor bits is the model's reading, beyond the list of R7 (entry 18). -/

open Sys2Proof Sys2Proof.Machine Host

/-! ### Encoding -/

/-- Decoding the word of an encodable instruction gives it back, every operand at every value, on its own port
(R71, R73, R74, R80). -/
def Obligations.EncodedWordDecodesToItsInstruction : Prop :=
  ∀ i : Instr, i.wf = true →
    decode (encode i) = .ok i
      ∧ (i.isCommand = true → decodeCommand (encode i) = .ok i)
      ∧ (i.isCommand = false → decodeMicroOp (encode i) = .ok i)

/-- The opcode map of R73: a word decodes to a row exactly when `w & mask == match`, and then to that command with
the fields of R71. -/
def Obligations.WordDecodesToTheRowItMatches : Prop :=
  ∀ w : CommandWord,
    (w &&& 0xFF0000000000#48 = 0x000000000000#48 ↔ decode w = .ok (.sequenceIn (cyclesField w)))
      ∧ (w &&& 0xFF0000000000#48 = 0x010000000000#48 ↔ decode w = .ok (.sequenceInParity (cyclesField w)))
      ∧ (w &&& 0xFF0000000000#48 = 0x020000000000#48 ↔
          decode w = .ok (.sequenceOut (valueField w) (cyclesField w)))
      ∧ (w &&& 0xFF0000000000#48 = 0x030000000000#48 ↔
          decode w = .ok (.sequenceOutParity (valueField w) (cyclesField w)))
      ∧ (w &&& 0xFF0000000000#48 = 0x040000000000#48 ↔ decode w = .ok .init)
      ∧ (w &&& 0xFF0000000000#48 = 0x050000000000#48 ↔ decode w = .ok (.setDivisor (valueField w)))

/-- The same for the six micro-op rows of opcode_table.json (R74). -/
def Obligations.MicroOpWordDecodesToTheRowItMatches : Prop :=
  ∀ w : CommandWord,
    (w &&& 0xFF0000000000#48 = 0x100000000000#48 ↔ decode w = .ok (.shiftIn (cyclesField w)))
      ∧ (w &&& 0xFF0000000000#48 = 0x110000000000#48 ↔ decode w = .ok (.shiftOut (valueField w) (cyclesField w)))
      ∧ (w &&& 0xFF0000000000#48 = 0x120000000000#48 ↔ decode w = .ok .drain)
      ∧ (w &&& 0xFF0000000000#48 = 0x130000000000#48 ↔ decode w = .ok (.setDiv (valueField w)))
      ∧ (w &&& 0xFF0000000000#48 = 0x140000000000#48 ↔ decode w = .ok .drive)
      ∧ (w &&& 0xFF0000000000#48 = 0x150000000000#48 ↔ decode w = .ok .sense)

/-- What each port accepts: the command port `op` 0x00 to 0x05 and nothing else (R75), the inner interface 0x10 to
0x15 (R74). -/
def Obligations.PortsAcceptTheirOwnOpcodesOnly : Prop :=
  ∀ w : CommandWord,
    ((∃ i, decodeCommand w = .ok i) ↔ (opField w).toNat ≤ 0x05)
      ∧ ((∃ i, decodeMicroOp w = .ok i) ↔ 0x10 ≤ (opField w).toNat ∧ (opField w).toNat ≤ 0x15)

/-- Ignored fields may hold anything (R72, R74): words with one `op` that agree on the fields that `op` uses decode
alike. -/
def Obligations.IgnoredFieldsNeverMatter : Prop :=
  ∀ w w' : CommandWord, opField w = opField w' →
    ((opField w ∈ [0x00#8, 0x01#8, 0x10#8] ∧ cyclesField w = cyclesField w')
        ∨ (opField w ∈ [0x05#8, 0x13#8] ∧ valueField w = valueField w')
        ∨ opField w ∈ [0x04#8, 0x12#8, 0x14#8, 0x15#8]) →
    decode w = decode w'

/-- The encoded examples of R80, and one micro-op word written from R74. -/
def Obligations.WordsOfTheSpecDecode : Prop :=
  decode 0x0208000000A5#48 = .ok (.sequenceOut 0xA5 8)
    ∧ decode 0x000300000000#48 = .ok (.sequenceIn 3)
    ∧ decode 0x012000000000#48 = .ok (.sequenceInParity 32)
    ∧ decode 0x032012345678#48 = .ok (.sequenceOutParity 0x12345678 32)
    ∧ decode 0x040000000000#48 = .ok .init
    ∧ decode 0x050000000004#48 = .ok (.setDivisor 4)
    ∧ decode 0x110400000A00#48 = .ok (.shiftOut 0xA00 4)

/-- Calling slot k of the capability table is presenting the command word with `op` = k (R150, R50). -/
def Obligations.CapabilitySlotIsTheOpcode : Prop :=
  ∀ (k cycles : Nat) (value : Word) (p : Primitive), cycles < 256 → capabilityTable[k]? = some p →
    decodeCommand (packWord (BitVec.ofNat 8 k) cycles value) = .ok (p.call value cycles)

/-! ### The step -/

/-- When a word is presented on a port that decodes it and no command is in progress, the step is `exec` of that
instruction on the state that has accepted it: the word in CMD, BUSY 1, UPC 0, the input consumed. For a command R29
and R30 say so; that a micro-op word on the inner interface is accepted alike is the model's reading (entry 28), and how
words reach the block is its choice (entry 4). -/
def Obligations.StepRunsTheDecodedInstruction : Prop :=
  ∀ (s : State) (w : CommandWord) (rest : List Input) (i : Instr), s.cfg.wf = true → s.busy = false →
    (s.inputs = .command w :: rest ∧ decodeCommand w = .ok i
      ∨ s.inputs = .microOp w :: rest ∧ decodeMicroOp w = .ok i) →
    step s = exec i { s with inputs := rest, cmd := w, busy := true, upc := 0, reply := .pending }

/-- With nothing presented the block waits and its state does not change, idle (R186) or hung (R180). That a waiting
step is a step at all is the model's choice (entry 29). -/
def Obligations.NothingPresentedChangesNothing : Prop :=
  ∀ s : State, s.cfg.wf = true → s.inputs = [] → step s = .next s

/-- Nothing runs under an ill-formed configuration: R175 says a model should refuse it, and U6 that the model is not
instantiated for one. That a configuration with a width of 32 or more, or with more than 32 divisor bits, counts as ill
formed is the model's reading, beyond the list of R7 (entry 18); the name of the refusal and that every step is refused
are the model's choice (entry 11). -/
def Obligations.IllFormedConfigurationIsRefused : Prop :=
  ∀ s : State, s.cfg.wf = false → step s = .refused .illFormedConfiguration

/-- A word presented while BUSY = 1 has no move (R210, U2): the model refuses by name (entry 25). -/
def Obligations.WordPresentedWhileBusyIsRefused : Prop :=
  ∀ (s : State) (w : CommandWord) (rest : List Input), s.cfg.wf = true → s.busy = true →
    (s.inputs = .command w :: rest ∨ s.inputs = .microOp w :: rest) →
    step s = .refused .presentedWhileBusy

/-- A word on the inner interface that is none of the six micro-ops stops the model by name: the model's choice
(entry 8). -/
def Obligations.UnknownMicroOpWordFaults : Prop :=
  ∀ (s : State) (w : CommandWord) (rest : List Input), s.cfg.wf = true → s.busy = false →
    s.inputs = .microOp w :: rest → ¬ (0x10 ≤ (opField w).toNat ∧ (opField w).toNat ≤ 0x15) →
    step s = .fault (.notAMicroOp w)

/-- An illegal `op` on the command port, the micro-op values included, raises `Fatal(ILLEGAL_OP)` before any state
change and any wire activity, bound or not (R75, R176 step 2 before step 3). -/
def Obligations.IllegalOpIsFatal : Prop :=
  ∀ (s : State) (w : CommandWord) (rest : List Input), s.cfg.wf = true → s.busy = false →
    s.session.faulted = false → s.inputs = .command w :: rest → 0x05 < (opField w).toNat →
    ∃ t, step s = .next t
      ∧ t.session = { s.session with faulted := true, cause := .illegalOp, faultCmd := w }
      ∧ SameTraces s t ∧ t.pin = s.pin ∧ t.shifterWidth = s.shifterWidth ∧ t.rxbuf = s.rxbuf ∧ t.slots = s.slots
      ∧ t.busy = false

/-- Right after reset: the values of R35 and R201. That the configuration of the reset state is the defaults of R7 is the
model's choice (entry 11), and three clauses rest on it: `WIDTH` is 8, `CLKDIV` is the open `CLKDIV_RESET` uncut, and the
pin is in the default sense mode. -/
def Obligations.ResetStateHasTheResetValues : Prop :=
  State.reset.session = { State.reset.session with
      dir := .sense, width := 8, carryValid := false, clkdiv := Config.clkdivReset, bound := false
      faulted := false, cause := .noFatal, faultCmd := 0, result := 0, perr := false }
    ∧ State.reset.pin = .input Config.cfg.pinSenseMode ∧ State.reset.busy = false ∧ State.reset.status = 0
    ∧ State.reset.wire = [] ∧ State.reset.calls = [] ∧ State.reset.config = []

/-- The reset input, at any time, during a hang and after a fatal too (R200): every field of `S` takes its reset
value, the pin senses, the traces are emptied, no cycle is clocked. The model's choices: the parameters of the step
survive it (entry 22), the capability table is gone (entry 20), and the programmed width of the shifter is the reset
width (entry 27); `CLKDIV_RESET` is cut to `CLKDIV_BITS` bits (entry 30). -/
def Obligations.ResetInputRestoresTheResetState : Prop :=
  ∀ (s : State) (rest : List Input), s.cfg.wf = true → s.inputs = .reset :: rest →
    ∃ t, step s = .next t
      ∧ t.session = { t.session with
          dir := .sense, width := BitVec.ofNat 5 s.cfg.widthReset, carryValid := false
          clkdiv := divisorOf s.cfg s.cfg.clkdivReset, bound := false
          faulted := false, cause := .noFatal, faultCmd := 0, result := 0, perr := false }
      ∧ t.pin = .input s.cfg.pinSenseMode ∧ t.shifterWidth = BitVec.ofNat 5 s.cfg.widthReset ∧ t.busy = false
      ∧ t.slots = [] ∧ t.wire = [] ∧ t.calls = [] ∧ t.config = [] ∧ t.cfg = s.cfg
      ∧ t.inputs = rest ∧ t.target = s.target ∧ t.sampled = s.sampled ∧ t.shifts = s.shifts ∧ t.polled = s.polled

/-- `STATUS = {CAUSE[2:0], FAULTED, BUSY}` with the codes of R171 (R79). -/
def Obligations.StatusLayout : Prop :=
  ∀ s : State,
    s.status.getLsbD 0 = s.busy ∧ s.status.getLsbD 1 = s.session.faulted
      ∧ s.status.extractLsb' 2 3 = s.session.cause.code
      ∧ [Cause.noFatal.code, Cause.cycles.code, Cause.carry.code, Cause.width.code, Cause.illegalOp.code,
          Cause.notBound.code] = [0, 1, 2, 3, 4, 5]

/-! ### Fatals -/

/-- `raise Fatal(cause)` (R172), for every command: one that ends in a fatal has changed `FAULTED`, `CAUSE` and
`FAULT_CMD` and nothing else of `S`, clocked no cycle, issued no micro-op, emitted no event, and BUSY is 0. -/
def Obligations.FatalChangesOnlyTheFatalLatch : Prop :=
  ∀ (i : Instr) (s t : State), i.isCommand = true → s.cfg.wf = true → s.session.faulted = false →
    exec i s = .next t → t.session.faulted = true →
    t.session.cause ≠ .noFatal ∧ t.reply = .fatal t.session.cause
      ∧ t.session = { s.session with faulted := true, cause := t.session.cause, faultCmd := s.cmd }
      ∧ SameTraces s t ∧ t.pin = s.pin ∧ t.shifterWidth = s.shifterWidth ∧ t.rxbuf = s.rxbuf ∧ t.slots = s.slots
      ∧ t.busy = false

/-- Cause `CYCLES` (R173): a primitive whose count is not legal is fatal, 0 and the widths of the shifter included,
whatever the carry flag is; the command word is latched. -/
def Obligations.IllegalCycleCountIsFatal : Prop :=
  ∀ (s : State) (value : Word) (n : Nat), s.canRun →
    (n ≠ 3 → ∃ t, exec (.sequenceIn n) s = .next t ∧ Trapped s t .cycles [])
      ∧ (n ≠ 32 → ∃ t, exec (.sequenceInParity n) s = .next t ∧ Trapped s t .cycles [])
      ∧ (n ≠ 8 ∧ n ≠ 12 ∧ n ≠ 16 ∧ n ≠ 32 → ∃ t, exec (.sequenceOut value n) s = .next t ∧ Trapped s t .cycles [])
      ∧ (n ≠ 32 → ∃ t, exec (.sequenceOutParity value n) s = .next t ∧ Trapped s t .cycles [])

/-- Cause `CARRY` (R174): `sequence_in_parity(32)` without a valid carry is fatal; no other primitive looks at the
flag as a precondition, and none ends with that cause. -/
def Obligations.ParityReadWithoutCarryIsFatal : Prop :=
  (∀ s : State, s.canRun → s.session.carryValid = false →
      ∃ t, exec (.sequenceInParity 32) s = .next t ∧ Trapped s t .carry [])
    ∧ ∀ (i : Instr) (s t : State), s.cfg.wf = true → s.session.faulted = false → exec i s = .next t →
        t.session.faulted = true → t.session.cause = .carry → i = .sequenceInParity 32 ∧ s.session.carryValid = false

/-- Cause `NOT_BOUND` (R176 step 3): before bring-up every command but `init` is fatal, and this is looked at before
the count and the carry. -/
def Obligations.CommandBeforeBringUpIsFatal : Prop :=
  ∀ (i : Instr) (s : State), i.isCommand = true → i ≠ .init → s.session.faulted = false → s.session.bound = false →
    ∃ t, exec i s = .next t ∧ Trapped s t .notBound []

/-- Cause `WIDTH` (R96): the adapter called directly with a count outside `WIDTHS` raises it before reconfiguring and
before any cycle, and no micro-op ends in any other fatal. The call is in the call trace, as R55 records a micro-op as
it is called. The model's reading: the count is looked at in either direction of the line (entry 9), and FAULT_CMD
holds the micro-op's word (entry 28). -/
def Obligations.UnsupportedShiftCountIsFatal : Prop :=
  (∀ (s : State) (b : Word) (n : Nat), s.session.faulted = false → n ∉ s.cfg.widths →
      (∃ t, exec (.shiftIn n) s = .next t ∧ Trapped s t .width [.shiftIn n])
        ∧ ∃ t, exec (.shiftOut b n) s = .next t ∧ Trapped s t .width [.shiftOut b n])
    ∧ ∀ (i : Instr) (s t : State), i.isCommand = false → s.session.faulted = false → exec i s = .next t →
        t.session.faulted = true →
        ((∃ n, i = .shiftIn n ∧ n ∉ s.cfg.widths) ∨ ∃ b n, i = .shiftOut b n ∧ n ∉ s.cfg.widths)
          ∧ Trapped s t .width [i]

/-- No command reaches `Fatal(WIDTH)` on a well-formed configuration (R96, R175), and the defaults of R7 are one. -/
def Obligations.NoCommandEndsInTheWidthFatal : Prop :=
  Config.cfg.wf = true
    ∧ ∀ (i : Instr) (s t : State), i.isCommand = true → s.cfg.wf = true → s.session.faulted = false →
        exec i s = .next t → t.session.faulted = true → t.session.cause ≠ .width

/-- While `FAULTED` = 1 every instruction, `init` and `set_divisor` included, is refused (R177): no field of `S`
changes, no micro-op is issued, no cycle is clocked, and the fatal is reported again. The refusal is a next state
(entry 2), and the micro-ops are refused alike (entry 7). -/
def Obligations.FaultedSessionRefusesEveryInstruction : Prop :=
  ∀ (i : Instr) (s : State), s.session.faulted = true →
    ∃ t, exec i s = .next t ∧ t.session = s.session ∧ SameTraces s t ∧ t.pin = s.pin
      ∧ t.shifterWidth = s.shifterWidth ∧ t.rxbuf = s.rxbuf ∧ t.slots = s.slots
      ∧ t.reply = .refused s.session.cause ∧ Completed s t 0 0 0

/-- `FAULTED` stays 1 until the reset input (R177): over one step of any kind but reset, a faulted session keeps every
field of `S`, its first cause and word among them, and nothing happens on the wire; a word on the command port, legal
or not, is refused with the fatal reported again; the reset input clears the latch. The model's reading: the refusal is
a next state (entry 2), and a micro-op word presented after a fatal is refused alike (entry 7), where R177 speaks of
commands; that a step with nothing presented changes nothing is its choice (entry 29). -/
def Obligations.FatalLastsUntilReset : Prop :=
  ∀ s : State, s.cfg.wf = true → s.session.faulted = true →
    (∀ t, (∀ rest, s.inputs ≠ .reset :: rest) → step s = .next t →
        t.session = s.session ∧ SameTraces s t ∧ t.pin = s.pin ∧ t.slots = s.slots)
      ∧ (∀ w rest, s.busy = false → s.inputs = .command w :: rest →
        ∃ t, step s = .next t ∧ t.session = s.session ∧ SameTraces s t ∧ t.pin = s.pin ∧ t.slots = s.slots
          ∧ t.reply = .refused s.session.cause ∧ t.busy = false)
      ∧ (∀ rest, s.inputs = .reset :: rest →
        ∃ t, step s = .next t ∧ t.session.faulted = false ∧ t.session.cause = .noFatal ∧ t.session.faultCmd = 0)

/-! ### The Bit-Shifter Adapter -/

/-- `shift_in(n)` (R92): `n` cycles in SENSE mode; bit `i` of the result is the i-th bit sampled and the bits above are
0; of `S` only `WIDTH` changes, and is reported only if it differs (R91). -/
def Obligations.ShiftInSamplesItsCount : Prop :=
  ∀ (s : State) (n : Nat), s.cfg.wf = true → s.session.faulted = false → s.session.dir = .sense →
    n ∈ s.cfg.widths → s.readyFor 1 →
    ∃ t r, exec (.shiftIn n) s = .next t ∧ t.reply = .bits r
      ∧ (∀ i, r.getLsbD i = (decide (i < n) && s.oracle i))
      ∧ t.session = { s.session with width := BitVec.ofNat 5 n }
      ∧ t.wire = s.wire ++ cyclesOf .sense (s.coming n)
      ∧ t.calls = s.calls ++ [.shiftIn n] ∧ t.config = s.config ++ widthEvents s.session.width [n]
      ∧ t.shifterWidth = lastPhysical s.session.width s.shifterWidth [n] ∧ t.pin = s.pin
      ∧ Completed s t n 1 1

/-- `shift_out(b, n)` (R93): `n` cycles in DRIVE mode presenting `b[0]` first; the bits above are ignored; of `S` only
`WIDTH` changes. -/
def Obligations.ShiftOutPresentsItsCount : Prop :=
  ∀ (s : State) (b : Word) (n : Nat), s.cfg.wf = true → s.session.faulted = false → s.session.dir = .drive →
    n ∈ s.cfg.widths → s.readyFor 1 →
    ∃ t, exec (.shiftOut b n) s = .next t ∧ t.reply = .unit
      ∧ t.session = { s.session with width := BitVec.ofNat 5 n }
      ∧ t.wire = s.wire ++ cyclesOf .drive (lowBits b n)
      ∧ t.calls = s.calls ++ [.shiftOut b n] ∧ t.config = s.config ++ widthEvents s.session.width [n]
      ∧ t.shifterWidth = lastPhysical s.session.width s.shifterWidth [n] ∧ t.pin = s.pin
      ∧ Completed s t 0 1 1

/-- A shift against the direction of the line is refused by name (R99, U7); the count is looked at first
(entry 9). -/
def Obligations.ShiftAgainstTheDirectionIsRefused : Prop :=
  ∀ (s : State) (b : Word) (n : Nat), s.session.faulted = false → n ∈ s.cfg.widths →
    (s.session.dir = .drive → exec (.shiftIn n) s = .refused .shiftInWhileDriving)
      ∧ (s.session.dir = .sense → exec (.shiftOut b n) s = .refused .shiftOutWhileSensing)

/-- A shift that never becomes ready (R97, R180, U4): BUSY stays 1 and there is no result; the width is reconfigured;
the first `min k n` of its cycles are on the wire, where `k` is the environment's: from the list in State, or free past
its end (entries 5, 23). That the hung shift itself has reconfigured the width is the model's reading (entry 31): R91 to
R93, R120 and vector I5 say so, while R180 has WIDTH as left by the micro-ops that ended. -/
def Obligations.HungShiftClocksPartOfItsCycles : Prop :=
  ∀ (s : State) (b : Word) (n k : Nat), s.session.faulted = false → n ∈ s.cfg.widths →
    s.readiness 0 = .never k →
    (s.session.dir = .sense → ∃ t, exec (.shiftIn n) s = .next t ∧ t.busy = true ∧ t.reply = .pending
        ∧ t.session = { s.session with width := BitVec.ofNat 5 n } ∧ t.upc = s.upc
        ∧ t.wire = s.wire ++ cyclesOf .sense (s.coming (min k n)) ∧ t.calls = s.calls ++ [.shiftIn n]
        ∧ t.config = s.config ++ widthEvents s.session.width [n])
      ∧ (s.session.dir = .drive → ∃ t, exec (.shiftOut b n) s = .next t ∧ t.busy = true ∧ t.reply = .pending
        ∧ t.session = { s.session with width := BitVec.ofNat 5 n } ∧ t.upc = s.upc
        ∧ t.wire = s.wire ++ cyclesOf .drive (lowBits b (min k n)) ∧ t.calls = s.calls ++ [.shiftOut b n]
        ∧ t.config = s.config ++ widthEvents s.session.width [n])

/-- `drain()` (R94): RXBUF is empty, `DRAINED` is emitted every time, no cycle, no field of `S`. -/
def Obligations.DrainEmptiesTheReceiveBuffer : Prop :=
  ∀ s : State, s.session.faulted = false →
    ∃ t, exec .drain s = .next t ∧ t.rxbuf = [] ∧ t.config = s.config ++ [.drained] ∧ t.calls = s.calls ++ [.drain]
      ∧ t.session = s.session ∧ t.wire = s.wire ∧ t.pin = s.pin ∧ t.shifterWidth = s.shifterWidth
      ∧ t.reply = .unit ∧ Completed s t 0 0 1

/-- `set_div(v)` (R95): `CLKDIV` takes the `CLKDIV_BITS` low bits of `v` and the event is emitted even when that is the
old value; no cycle, nothing else of `S`. That bits of `v` above `CLKDIV_BITS` are dropped is the model's choice
(entry 30). -/
def Obligations.SetDivWritesTheDivisor : Prop :=
  ∀ (s : State) (v : Word), s.session.faulted = false →
    ∃ t, exec (.setDiv v) s = .next t ∧ t.session = { s.session with clkdiv := divisorOf s.cfg v }
      ∧ t.config = s.config ++ [.reconfDiv (divisorOf s.cfg v)] ∧ t.calls = s.calls ++ [.setDiv (divisorOf s.cfg v)]
      ∧ t.wire = s.wire ∧ t.pin = s.pin ∧ t.shifterWidth = s.shifterWidth ∧ t.rxbuf = s.rxbuf
      ∧ t.reply = .unit ∧ Completed s t 0 0 1

/-! ### The Direction Controller -/

/-- `drive()` (R111): from SENSE mode the pin and the flag change and the event is emitted; in DRIVE mode nothing at
all happens but the entry in the call trace; no cycle; bring-up is not needed. Its word has `op` 0x14. -/
def Obligations.DriveSwitchesTheLineToOutput : Prop :=
  (∀ w : CommandWord, opField w = 0x14 → decode w = .ok .drive) ∧
  ∀ s : State, s.session.faulted = false →
    ∃ t, exec .drive s = .next t ∧ t.session = { s.session with dir := .drive }
      ∧ (s.session.dir = .sense → t.pin = .pushPull ∧ t.config = s.config ++ [.reconfPin .drive])
      ∧ (s.session.dir = .drive → t.pin = s.pin ∧ t.config = s.config)
      ∧ t.calls = s.calls ++ [.drive] ∧ t.wire = s.wire
      ∧ t.shifterWidth = s.shifterWidth ∧ t.rxbuf = s.rxbuf ∧ t.reply = .unit ∧ Completed s t 0 0 1

/-- `sense()` (R112): from DRIVE mode the pin and the flag change and the event is emitted; in SENSE mode nothing
happens but the entry in the call trace; no cycle. Its word has `op` 0x15. -/
def Obligations.SenseSwitchesTheLineToInput : Prop :=
  (∀ w : CommandWord, opField w = 0x15 → decode w = .ok .sense) ∧
  ∀ s : State, s.session.faulted = false →
    ∃ t, exec .sense s = .next t ∧ t.session = { s.session with dir := .sense }
      ∧ (s.session.dir = .drive →
          t.pin = .input s.cfg.pinSenseMode ∧ t.config = s.config ++ [.reconfPin .sense])
      ∧ (s.session.dir = .sense → t.pin = s.pin ∧ t.config = s.config)
      ∧ t.calls = s.calls ++ [.sense] ∧ t.wire = s.wire
      ∧ t.shifterWidth = s.shifterWidth ∧ t.rxbuf = s.rxbuf ∧ t.reply = .unit ∧ Completed s t 0 0 1

/-- Every cycle a call clocks is of the mode the line is in when the call ends or hangs: a phase never switches inside
(R113, R114), so a turnaround is never driven (R115). -/
def Obligations.EveryCycleHasTheModeOfItsPhase : Prop :=
  ∀ (i : Instr) (s t : State), s.cfg.wf = true → exec i s = .next t →
    ∃ bits, t.wire = s.wire ++ cyclesOf t.session.dir bits

/-! ### The Sequence Engine -/

/-- `sequence_in(3)` with no valid carry (R121): 5 cycles; the first bit is dropped, the next three are the ACK, the
last is the new carry. -/
def Obligations.AckReadWithoutCarryTakesFiveCycles : Prop :=
  ∀ s : State, s.canRun → s.session.carryValid = false → s.readyFor 1 →
    ∃ t ack, exec (.sequenceIn 3) s = .next t ∧ t.reply = .ack ack
      ∧ t.session = { s.session with
          dir := .sense, width := 5, carry := s.oracle 4, carryValid := true
          result := ack.setWidth 32, perr := false }
      ∧ (ack.getLsbD 0 = s.oracle 1 ∧ ack.getLsbD 1 = s.oracle 2 ∧ ack.getLsbD 2 = s.oracle 3)
      ∧ t.wire = s.wire ++ cyclesOf .sense (s.coming 5) ∧ t.calls = s.calls ++ [.sense, .shiftIn 5]
      ∧ t.config = s.config ++ pinEvents s.session.dir .sense ++ widthEvents s.session.width [5]
      ∧ t.pin = (if s.session.dir = .sense then s.pin else .input s.cfg.pinSenseMode)
      ∧ t.shifterWidth = lastPhysical s.session.width s.shifterWidth [5] ∧ Completed s t 5 1 2

/-- `sequence_in(3)` with a valid carry (R121, R122): 4 cycles; the first three bits are the ACK, the last is the new
carry, and the old carry is dropped. -/
def Obligations.AckReadWithCarryTakesFourCycles : Prop :=
  ∀ s : State, s.canRun → s.session.carryValid = true → s.readyFor 1 →
    ∃ t ack, exec (.sequenceIn 3) s = .next t ∧ t.reply = .ack ack
      ∧ t.session = { s.session with
          dir := .sense, width := 4, carry := s.oracle 3, carryValid := true
          result := ack.setWidth 32, perr := false }
      ∧ (ack.getLsbD 0 = s.oracle 0 ∧ ack.getLsbD 1 = s.oracle 1 ∧ ack.getLsbD 2 = s.oracle 2)
      ∧ t.wire = s.wire ++ cyclesOf .sense (s.coming 4) ∧ t.calls = s.calls ++ [.sense, .shiftIn 4]
      ∧ t.config = s.config ++ pinEvents s.session.dir .sense ++ widthEvents s.session.width [4]
      ∧ t.pin = (if s.session.dir = .sense then s.pin else .input s.cfg.pinSenseMode)
      ∧ t.shifterWidth = lastPhysical s.session.width s.shifterWidth [4] ∧ Completed s t 4 1 2

/-- The ACK decoder does nothing with the value (R124, R179): whatever the target presents, the calls, the
reconfigurations, the number of cycles, the end and every field of `S` but the carry and RESULT are the same. -/
def Obligations.AckValueDecidesNothing : Prop :=
  ∀ (s t : State) (other : List Bool) (n : Nat), exec (.sequenceIn n) s = .next t →
    ∃ t', exec (.sequenceIn n) { s with target := other } = .next t'
      ∧ t'.session = { t.session with carry := t'.session.carry, result := t'.session.result }
      ∧ t'.calls = t.calls ∧ t'.config = t.config ∧ t'.wire.length = t.wire.length ∧ t'.busy = t.busy
      ∧ t'.upc = t.upc ∧ t'.shifts = t.shifts ∧ t'.polled = t.polled

/-- `sequence_in_parity(32)` (R125, R126): bit 0 of the word is the carry, bits 1 to 31 are the first 31 bits read, the
32nd is the parity bit, the 33rd is read and dropped; `parity_error` compares over the reassembled word; the carry
is read, kept and made invalid. -/
def Obligations.ParityReadReturnsTheReassembledWord : Prop :=
  ∀ s : State, s.canRun → s.session.carryValid = true → s.readyFor s.cfg.inParityChunks.length →
    ∃ t v, exec (.sequenceInParity 32) s = .next t ∧ t.reply = .data v (parity32 v != s.oracle 31)
      ∧ v.getLsbD 0 = s.session.carry ∧ (∀ i, i < 31 → v.getLsbD (i + 1) = s.oracle i)
      ∧ t.session = { s.session with
          dir := .sense, width := lastWidth s.session.width s.cfg.inParityChunks
          carryValid := false, result := v, perr := parity32 v != s.oracle 31 }
      ∧ t.wire = s.wire ++ cyclesOf .sense (s.coming 33)
      ∧ t.calls = s.calls ++ .sense :: s.cfg.inParityChunks.map Instr.shiftIn
      ∧ t.config = s.config ++ pinEvents s.session.dir .sense ++ widthEvents s.session.width s.cfg.inParityChunks
      ∧ t.pin = (if s.session.dir = .sense then s.pin else .input s.cfg.pinSenseMode)
      ∧ t.shifterWidth = lastPhysical s.session.width s.shifterWidth s.cfg.inParityChunks
      ∧ Completed s t 33 s.cfg.inParityChunks.length (s.cfg.inParityChunks.length + 1)

/-- The chunk list of `sequence_in_parity` does not matter (R126): under any other well-formed configuration the value,
the flag, the wire trace and `S` but for the final WIDTH are the same. -/
def Obligations.ParityReadDoesNotDependOnItsChunks : Prop :=
  ∀ (s : State) (cfg : Cfg), s.canRun → cfg.wf = true → s.session.carryValid = true →
    s.readyFor s.cfg.inParityChunks.length → s.readyFor cfg.inParityChunks.length →
    ∃ t t', exec (.sequenceInParity 32) s = .next t ∧ exec (.sequenceInParity 32) { s with cfg := cfg } = .next t'
      ∧ t'.reply = t.reply ∧ t'.wire = t.wire ∧ t'.session = { t.session with width := t'.session.width }
      ∧ t'.calls = s.calls ++ .sense :: cfg.inParityChunks.map Instr.shiftIn

/-- A parity mismatch is data, not an error (R127, R178): whatever the target presents, the calls, the
reconfigurations, the number of cycles, the end and every field of `S` but RESULT and PERR are the same. -/
def Obligations.ParityMismatchIsOnlyData : Prop :=
  ∀ (s t : State) (other : List Bool) (n : Nat), exec (.sequenceInParity n) s = .next t →
    ∃ t', exec (.sequenceInParity n) { s with target := other } = .next t'
      ∧ t'.session = { t.session with result := t'.session.result, perr := t'.session.perr }
      ∧ t'.calls = t.calls ∧ t'.config = t.config ∧ t'.wire.length = t.wire.length ∧ t'.busy = t.busy
      ∧ t'.upc = t.upc ∧ t'.shifts = t.shifts ∧ t'.polled = t.polled

/-- `sequence_out(value, n)` (R130, R131, R132): drain, drive, then exactly `n` cycles with `value[0]` first, bits from
`n` on ignored; the carry is made invalid; RESULT and PERR stay. -/
def Obligations.RawOutputDrivesTheLowBits : Prop :=
  ∀ (s : State) (value : Word) (n : Nat), s.canRun → n ∈ [8, 12, 16, 32] →
    s.readyFor (s.cfg.outChunks n).length →
    ∃ t, exec (.sequenceOut value n) s = .next t ∧ t.reply = .unit
      ∧ t.session = { s.session with
          dir := .drive, width := lastWidth s.session.width (s.cfg.outChunks n), carryValid := false }
      ∧ t.wire = s.wire ++ cyclesOf .drive (lowBits value n)
      ∧ t.calls = s.calls ++ [.drain, .drive]
          ++ (outShifts value 0 (s.cfg.outChunks n)).map (fun x => .shiftOut x.1 x.2)
      ∧ t.config = s.config ++ [.drained] ++ pinEvents s.session.dir .drive
          ++ widthEvents s.session.width (s.cfg.outChunks n)
      ∧ t.pin = (if s.session.dir = .drive then s.pin else .pushPull)
      ∧ t.shifterWidth = lastPhysical s.session.width s.shifterWidth (s.cfg.outChunks n)
      ∧ Completed s t 0 (s.cfg.outChunks n).length ((s.cfg.outChunks n).length + 2)

/-- The chunk lists of `sequence_out` do not matter (R132, R77): under any other well-formed configuration the wire
shows the same bits, and `S` differs only in the final WIDTH. -/
def Obligations.RawOutputDoesNotDependOnItsChunks : Prop :=
  ∀ (s : State) (cfg : Cfg) (value : Word) (n : Nat), s.canRun → cfg.wf = true → n ∈ [8, 12, 16, 32] →
    s.readyFor (s.cfg.outChunks n).length → s.readyFor (cfg.outChunks n).length →
    ∃ t t', exec (.sequenceOut value n) s = .next t ∧ exec (.sequenceOut value n) { s with cfg := cfg } = .next t'
      ∧ t'.reply = t.reply ∧ t'.wire = t.wire ∧ t'.session = { t.session with width := t'.session.width }
      ∧ t'.calls = s.calls ++ [.drain, .drive] ++ (outShifts value 0 (cfg.outChunks n)).map (fun x => .shiftOut x.1 x.2)

/-- `sequence_out_parity(value, 32)` (R134): drain, drive, the 32 bits of the word with bit 0 first, the parity bit,
then the 7 overhead bits of `PAD7`; 40 cycles; the carry is made invalid; RESULT and PERR stay. -/
def Obligations.ParityOutputDrivesWordParityAndPadding : Prop :=
  ∀ (s : State) (value : Word), s.canRun → s.readyFor 5 →
    ∃ t, exec (.sequenceOutParity value 32) s = .next t ∧ t.reply = .unit
      ∧ t.session = { s.session with dir := .drive, width := 8, carryValid := false }
      ∧ t.wire = s.wire ++ cyclesOf .drive
          (lowBits value 32 ++ parity32 value :: (List.range 7).map fun i => s.cfg.pad7.getLsbD i)
      ∧ t.calls = s.calls ++ [.drain, .drive, .shiftOut (value &&& 0xFF) 8, .shiftOut ((value >>> 8) &&& 0xFF) 8,
          .shiftOut ((value >>> 16) &&& 0xFF) 8, .shiftOut (value >>> 24) 8,
          .shiftOut ((s.cfg.pad7 ++ BitVec.ofBool (parity32 value)).setWidth 32) 8]
      ∧ t.config = s.config ++ [.drained] ++ pinEvents s.session.dir .drive
          ++ widthEvents s.session.width [8, 8, 8, 8, 8]
      ∧ t.pin = (if s.session.dir = .drive then s.pin else .pushPull)
      ∧ t.shifterWidth = lastPhysical s.session.width s.shifterWidth [8, 8, 8, 8, 8] ∧ Completed s t 0 5 7

/-- The overhead bits are the parameter `PAD7` (R134, U10): another one changes the last 7 cycles and the last call, and
nothing else of `S` or of the events; with the spec's default (D16) they are 0. -/
def Obligations.OverheadBitsAreTheParameter : Prop :=
  ∀ (s : State) (value : Word) (pad : BitVec 7), s.canRun → s.readyFor 5 →
    ∃ t t', exec (.sequenceOutParity value 32) s = .next t
      ∧ exec (.sequenceOutParity value 32) { s with cfg := { s.cfg with pad7 := pad } } = .next t'
      ∧ t'.session = t.session ∧ t'.config = t.config ∧ t'.calls.dropLast = t.calls.dropLast
      ∧ t'.wire = t.wire.take (s.wire.length + 33)
          ++ cyclesOf .drive ((List.range 7).map fun i => pad.getLsbD i)
      ∧ (pad = 0 → t'.wire = s.wire ++ cyclesOf .drive
          (lowBits value 32 ++ parity32 value :: List.replicate 7 false))

/-- `parity32` (R140): it is the exclusive or of the 32 bits, so the 33 bits `{p, v}` hold an even number of ones; and
the values R140 gives. -/
def Obligations.ParityIsEven : Prop :=
  (∀ v : Word, parity32 v = (lowBits v 32).foldr xor false
      ∧ ((lowBits v 32 ++ [parity32 v]).filter id).length % 2 = 0)
    ∧ parity32 0x00000000 = false ∧ parity32 0xFFFFFFFF = false ∧ parity32 0x00000001 = true
    ∧ parity32 0x80000000 = true ∧ parity32 0x12345678 = true

/-- Round trip (R146). First its exact form: after the carry bit `V[0]` the target presents `V[1]` to `V[31]`; with
`parity32(V)` next the read gives (V, false), with its complement (V, true), whatever the trailing bit. Then the
loopback: the bits are those that `sequence_out_parity(V, 32)` drove, from any state, its first 33. -/
def Obligations.ParityRoundTrip : Prop :=
  (∀ (V : Word) (s : State), s.canRun → s.session.carryValid = true → s.readyFor s.cfg.inParityChunks.length →
      s.session.carry = V.getLsbD 0 → (∀ i, i < 31 → s.oracle i = V.getLsbD (i + 1)) →
      ∃ t, exec (.sequenceInParity 32) s = .next t ∧ t.session.result = V
        ∧ (s.oracle 31 = parity32 V → t.session.perr = false)
        ∧ (s.oracle 31 = !parity32 V → t.session.perr = true))
    ∧ ∀ (V : Word) (s₀ t₀ s : State), exec (.sequenceOutParity V 32) s₀ = .next t₀ → t₀.session.faulted = false →
      t₀.busy = false → s.canRun → s.session.carryValid = true → s.readyFor s.cfg.inParityChunks.length →
      let driven := (t₀.wire.drop s₀.wire.length).map Cyc.bit
      driven[0]? = some s.session.carry → (∀ i, i < 31 → driven[i + 1]? = some (s.oracle i)) →
      ∃ t, exec (.sequenceInParity 32) s = .next t ∧ t.session.result = V
        ∧ (driven[32]? = some (s.oracle 31) → t.session.perr = false)
        ∧ (driven[32]? = some (!s.oracle 31) → t.session.perr = true)

/-- The carry as a state machine (R145): cycles clocked and `CARRY_VALID` afterwards, for each command that ends,
whatever the flag was before. -/
def Obligations.CarryStateMachine : Prop :=
  ∀ (s t : State) (v : Word) (n : Nat), s.canRun → t.busy = false →
    (exec (.sequenceIn 3) s = .next t →
        t.wire.length = s.wire.length + (if s.session.carryValid then 4 else 5) ∧ t.session.carryValid = true)
      ∧ (exec (.sequenceInParity 32) s = .next t → s.session.carryValid = false →
        t.wire.length = s.wire.length ∧ t.session.faulted = true ∧ t.session.cause = .carry
          ∧ t.session.carryValid = false)
      ∧ (exec (.sequenceInParity 32) s = .next t → s.session.carryValid = true →
        t.wire.length = s.wire.length + 33 ∧ t.session.carryValid = false)
      ∧ (n ∈ [8, 12, 16, 32] → exec (.sequenceOut v n) s = .next t →
        t.wire.length = s.wire.length + n ∧ t.session.carryValid = false)
      ∧ (exec (.sequenceOutParity v 32) s = .next t →
        t.wire.length = s.wire.length + 40 ∧ t.session.carryValid = false)
      ∧ (exec .init s = .next t → t.wire.length = s.wire.length ∧ t.session.carryValid = false)
      ∧ (exec (.setDivisor v) s = .next t →
        t.wire.length = s.wire.length ∧ t.session.carryValid = s.session.carryValid)

/-- Physical cycles of every call that ends (R215): the table's count if it completes, none if it ends in a fatal or
is refused. -/
def Obligations.PhysicalCyclesOfEveryCall : Prop :=
  ∀ (i : Instr) (s t : State), s.cfg.wf = true → exec i s = .next t → t.busy = false →
    t.wire.length =
      s.wire.length + (if t.session.faulted then 0 else physicalCycles s.session.carryValid i)

/-- After a command other than `set_divisor` completes, `CARRY_VALID` = 1 if and only if that command was
`sequence_in` (R25). -/
def Obligations.CarryIsValidExactlyAfterAnAckRead : Prop :=
  ∀ (i : Instr) (s t : State), i.isCommand = true → (∀ v, i ≠ .setDivisor v) → exec i s = .next t →
    t.busy = false → t.session.faulted = false →
    (t.session.carryValid = true ↔ ∃ n, i = .sequenceIn n)

/-- The value of the carry is read by `sequence_in_parity` only (R23, R122, R123): any other call does the same
whatever the carry bit is, and `sequence_in` that completes leaves no trace of the old one. -/
def Obligations.CarryValueIsReadByTheParityReadOnly : Prop :=
  ∀ (i : Instr) (s t : State) (c : Bool), (∀ n, i ≠ .sequenceInParity n) → exec i s = .next t →
    ∃ t', exec i { s with session.carry := c } = .next t'
      ∧ t = { t' with session.carry := t.session.carry }
      ∧ ((∃ n, i = .sequenceIn n) → t.busy = false → t.session.faulted = false → t' = t)

/-- A hang of a primitive (R180, R120 step 4): `FAULTED` stays 0, there is no result, and of `S` only DIR and WIDTH may
have changed. It leaves open whether the hung shift has changed WIDTH (entry 31). -/
def Obligations.HangLeavesTheResultsAlone : Prop :=
  ∀ (i : Instr) (s t : State), s.cfg.wf = true → exec i s = .next t → t.busy = true →
    t.session = { s.session with dir := t.session.dir, width := t.session.width }
      ∧ t.session.faulted = false ∧ t.reply = .pending ∧ t.slots = s.slots

/-- The traces of a hung call begin the traces the call would have had if its shifts had become ready: a part of the
cycles, of the calls and of the events (R97, R180). -/
def Obligations.HungCallStopsInsideItsTrace : Prop :=
  ∀ (i : Instr) (s t t' : State) (env : List ShiftEnv), s.cfg.wf = true → exec i s = .next t → t.busy = true →
    ({ s with shifts := env } : State).readyFor (shiftCount s.cfg i) → exec i { s with shifts := env } = .next t' →
    t'.busy = false ∧ t.wire <+: t'.wire ∧ t.calls <+: t'.calls ∧ t.config <+: t'.config ∧ t.upc < t'.upc

/-! ### Whole-machine rules -/

/-- Every cycle is requested and every requested cycle is clocked (R218, R60): the wire grows by the sum of the counts in
the new entries of the call trace, for every command that ends and every micro-op that raises no fatal. -/
def Obligations.WireCyclesEqualRequestedCycles : Prop :=
  ∀ (i : Instr) (s t : State), s.cfg.wf = true → exec i s = .next t → t.busy = false →
    i.isCommand = true ∨ t.session.faulted = false →
    ∃ ops, t.calls = s.calls ++ ops ∧ t.wire.length = s.wire.length + (ops.map Instr.requestedCycles).sum

/-- Nothing on the wire is recalled (R59): over any step but reset the three traces only grow. -/
def Obligations.TracesOnlyGrow : Prop :=
  ∀ s t : State, step s = .next t → (∀ rest, s.inputs ≠ .reset :: rest) →
    s.wire <+: t.wire ∧ s.calls <+: t.calls ∧ s.config <+: t.config

/-- Which call can write which field of `S` (R36, and R92 to R95, R111, R112 for the micro-ops); none writes the
configuration (R17). -/
def Obligations.OnlyTheListedCallsWriteAField : Prop :=
  ∀ (i : Instr) (s t : State), s.cfg.wf = true → exec i s = .next t →
    t.cfg = s.cfg ∧ ((∀ n, i ≠ .sequenceIn n) → t.session.carry = s.session.carry)
      ∧ ((∀ n, i ≠ .sequenceIn n) → (∀ n, i ≠ .sequenceInParity n) →
        t.session.result = s.session.result ∧ t.session.perr = s.session.perr)
      ∧ (i ≠ .init → t.session.bound = s.session.bound ∧ t.slots = s.slots)
      ∧ (i ≠ .init → (∀ v, i ≠ .setDivisor v) → (∀ v, i ≠ .setDiv v) → t.session.clkdiv = s.session.clkdiv)
      ∧ (i.isCommand = false ∨ (∃ v, i = .setDivisor v) → t.session.carryValid = s.session.carryValid)
      ∧ ((∃ v, i = .setDivisor v) ∨ (∃ n, i = .shiftIn n) ∨ (∃ b n, i = .shiftOut b n) ∨ i = .drain
          ∨ (∃ v, i = .setDiv v) → t.session.dir = s.session.dir ∧ t.pin = s.pin)
      ∧ ((∃ v, i = .setDivisor v) ∨ i = .drain ∨ (∃ v, i = .setDiv v) ∨ i = .drive ∨ i = .sense →
        t.session.width = s.session.width ∧ t.shifterWidth = s.shifterWidth)

/-! ### The Debug Port Binding -/

/-- `init()` (R152): the three reconfigurations whatever the flags held, the carry invalid, the table handed over,
`BOUND` = 1; its call trace is `set_div(CLKDIV_RESET)` only; no cycle; it always completes (R153). That `CLKDIV_RESET`
is cut to `CLKDIV_BITS` bits is the model's choice (entry 30). -/
def Obligations.InitBringsTheBlockUp : Prop :=
  ∀ s : State, s.session.faulted = false →
    ∃ t, exec .init s = .next t
      ∧ t.session = { s.session with
          dir := .sense, width := BitVec.ofNat 5 s.cfg.widthReset
          clkdiv := divisorOf s.cfg s.cfg.clkdivReset, carryValid := false, bound := true }
      ∧ t.config = s.config ++ [.reconfPin .sense, .reconfWidth s.cfg.widthReset,
          .reconfDiv (divisorOf s.cfg s.cfg.clkdivReset)]
      ∧ t.calls = s.calls ++ [.setDiv (divisorOf s.cfg s.cfg.clkdivReset)] ∧ t.wire = s.wire
      ∧ t.pin = .input s.cfg.pinSenseMode ∧ t.shifterWidth = BitVec.ofNat 5 s.cfg.widthReset ∧ t.cfg = s.cfg
      ∧ t.slots = [.sequenceIn, .sequenceInParity, .sequenceOut, .sequenceOutParity]
      ∧ t.reply = .unit ∧ t.busy = false ∧ t.cmd = s.cmd ∧ t.inputs = s.inputs ∧ t.upc = s.upc + 1
      ∧ t.target = s.target ∧ t.sampled = s.sampled ∧ t.shifts = s.shifts ∧ t.polled = s.polled

/-- `set_divisor(value)` (R154): its word has `op` 0x05; it writes `CLKDIV` only, with `value[CLKDIV_BITS-1:0]`; the carry,
the direction and the width are untouched; no cycle; before bring-up it is `Fatal(NOT_BOUND)`. -/
def Obligations.SetDivisorWritesTheDivisorOnly : Prop :=
  (∀ w : CommandWord, opField w = 0x05 → decode w = .ok (.setDivisor (valueField w))) ∧
  ∀ (s : State) (value : Word), s.session.faulted = false →
    (s.session.bound = true →
        ∃ t, exec (.setDivisor value) s = .next t ∧ t.session = { s.session with clkdiv := divisorOf s.cfg value }
          ∧ t.calls = s.calls ++ [.setDiv (divisorOf s.cfg value)]
          ∧ t.config = s.config ++ [.reconfDiv (divisorOf s.cfg value)] ∧ t.wire = s.wire
          ∧ t.pin = s.pin ∧ t.shifterWidth = s.shifterWidth ∧ t.rxbuf = s.rxbuf ∧ t.reply = .unit
          ∧ Completed s t 0 0 1)
      ∧ (s.session.bound = false → ∃ t, exec (.setDivisor value) s = .next t ∧ Trapped s t .notBound [])

/-! ### The invariant -/

/-- The invariant holds right after reset, with the defaults of R7 and with any well-formed configuration. Of its
clauses the empty table (entry 20) and the programmed width of the shifter (entry 27) are the model's choice at
reset. -/
def Obligations.InvHoldsAtReset : Prop :=
  Inv State.reset ∧ ∀ cfg : Cfg, cfg.wf = true → Inv (State.resetWith cfg)

/-- Every step keeps the invariant: DIR equals the pin's mode (R21), the shifter's width equals WIDTH (R32) and is a
width of the shifter (R22), CLKDIV has `CLKDIV_BITS` bits (R26), the configuration is well formed (R7), CAUSE and
FAULT_CMD are 0 while no fatal is latched and CAUSE names the fatal while one is (R28), the capability table is there
exactly while bound (R27, R150), a valid carry is of a bound session (R24), a hang is no fatal (R180), the call trace
holds micro-ops only (R55). -/
def Obligations.EveryStepKeepsInv : Prop :=
  ∀ s t : State, Inv s → step s = .next t → Inv t
end

