-- ==== Sys2Proof/Laws/State.lean ====
section
/-! SUPPORT. What each update of the state leaves in each field: true by definition, so that no later proof unfolds a
record update. -/

namespace Sys2Proof.Machine

/-! ### `issue` -/

@[simp] theorem issue_cfg (op : Instr) (s : State) : (issue op s).cfg = s.cfg := rfl
@[simp] theorem issue_session (op : Instr) (s : State) : (issue op s).session = s.session := rfl
@[simp] theorem issue_cmd (op : Instr) (s : State) : (issue op s).cmd = s.cmd := rfl
@[simp] theorem issue_busy (op : Instr) (s : State) : (issue op s).busy = s.busy := rfl
@[simp] theorem issue_upc (op : Instr) (s : State) : (issue op s).upc = s.upc := rfl
@[simp] theorem issue_reply (op : Instr) (s : State) : (issue op s).reply = s.reply := rfl
@[simp] theorem issue_pin (op : Instr) (s : State) : (issue op s).pin = s.pin := rfl
@[simp] theorem issue_shifterWidth (op : Instr) (s : State) : (issue op s).shifterWidth = s.shifterWidth := rfl
@[simp] theorem issue_rxbuf (op : Instr) (s : State) : (issue op s).rxbuf = s.rxbuf := rfl
@[simp] theorem issue_lineData (op : Instr) (s : State) : (issue op s).lineData = s.lineData := rfl
@[simp] theorem issue_lineClock (op : Instr) (s : State) : (issue op s).lineClock = s.lineClock := rfl
@[simp] theorem issue_slots (op : Instr) (s : State) : (issue op s).slots = s.slots := rfl
@[simp] theorem issue_wire (op : Instr) (s : State) : (issue op s).wire = s.wire := rfl
@[simp] theorem issue_calls (op : Instr) (s : State) : (issue op s).calls = s.calls ++ [op] := rfl
@[simp] theorem issue_config (op : Instr) (s : State) : (issue op s).config = s.config := rfl
@[simp] theorem issue_inputs (op : Instr) (s : State) : (issue op s).inputs = s.inputs := rfl
@[simp] theorem issue_target (op : Instr) (s : State) : (issue op s).target = s.target := rfl
@[simp] theorem issue_shifts (op : Instr) (s : State) : (issue op s).shifts = s.shifts := rfl
@[simp] theorem issue_sampled (op : Instr) (s : State) : (issue op s).sampled = s.sampled := rfl
@[simp] theorem issue_polled (op : Instr) (s : State) : (issue op s).polled = s.polled := rfl
@[simp] theorem issue_draws (op : Instr) (s : State) : (issue op s).draws = s.draws := rfl

/-! ### `retire` -/

@[simp] theorem retire_cfg (s : State) : (retire s).cfg = s.cfg := rfl
@[simp] theorem retire_session (s : State) : (retire s).session = s.session := rfl
@[simp] theorem retire_cmd (s : State) : (retire s).cmd = s.cmd := rfl
@[simp] theorem retire_busy (s : State) : (retire s).busy = s.busy := rfl
@[simp] theorem retire_upc (s : State) : (retire s).upc = s.upc + 1 := rfl
@[simp] theorem retire_reply (s : State) : (retire s).reply = s.reply := rfl
@[simp] theorem retire_pin (s : State) : (retire s).pin = s.pin := rfl
@[simp] theorem retire_shifterWidth (s : State) : (retire s).shifterWidth = s.shifterWidth := rfl
@[simp] theorem retire_rxbuf (s : State) : (retire s).rxbuf = s.rxbuf := rfl
@[simp] theorem retire_lineData (s : State) : (retire s).lineData = s.lineData := rfl
@[simp] theorem retire_lineClock (s : State) : (retire s).lineClock = s.lineClock := rfl
@[simp] theorem retire_slots (s : State) : (retire s).slots = s.slots := rfl
@[simp] theorem retire_wire (s : State) : (retire s).wire = s.wire := rfl
@[simp] theorem retire_calls (s : State) : (retire s).calls = s.calls := rfl
@[simp] theorem retire_config (s : State) : (retire s).config = s.config := rfl
@[simp] theorem retire_inputs (s : State) : (retire s).inputs = s.inputs := rfl
@[simp] theorem retire_target (s : State) : (retire s).target = s.target := rfl
@[simp] theorem retire_shifts (s : State) : (retire s).shifts = s.shifts := rfl
@[simp] theorem retire_sampled (s : State) : (retire s).sampled = s.sampled := rfl
@[simp] theorem retire_polled (s : State) : (retire s).polled = s.polled := rfl
@[simp] theorem retire_draws (s : State) : (retire s).draws = s.draws := rfl

/-! ### `emit` -/

@[simp] theorem emit_cfg (e : ConfigEvent) (s : State) : (emit e s).cfg = s.cfg := rfl
@[simp] theorem emit_session (e : ConfigEvent) (s : State) : (emit e s).session = s.session := rfl
@[simp] theorem emit_cmd (e : ConfigEvent) (s : State) : (emit e s).cmd = s.cmd := rfl
@[simp] theorem emit_busy (e : ConfigEvent) (s : State) : (emit e s).busy = s.busy := rfl
@[simp] theorem emit_upc (e : ConfigEvent) (s : State) : (emit e s).upc = s.upc := rfl
@[simp] theorem emit_reply (e : ConfigEvent) (s : State) : (emit e s).reply = s.reply := rfl
@[simp] theorem emit_pin (e : ConfigEvent) (s : State) : (emit e s).pin = s.pin := rfl
@[simp] theorem emit_shifterWidth (e : ConfigEvent) (s : State) : (emit e s).shifterWidth = s.shifterWidth := rfl
@[simp] theorem emit_rxbuf (e : ConfigEvent) (s : State) : (emit e s).rxbuf = s.rxbuf := rfl
@[simp] theorem emit_lineData (e : ConfigEvent) (s : State) : (emit e s).lineData = s.lineData := rfl
@[simp] theorem emit_lineClock (e : ConfigEvent) (s : State) : (emit e s).lineClock = s.lineClock := rfl
@[simp] theorem emit_slots (e : ConfigEvent) (s : State) : (emit e s).slots = s.slots := rfl
@[simp] theorem emit_wire (e : ConfigEvent) (s : State) : (emit e s).wire = s.wire := rfl
@[simp] theorem emit_calls (e : ConfigEvent) (s : State) : (emit e s).calls = s.calls := rfl
@[simp] theorem emit_config (e : ConfigEvent) (s : State) : (emit e s).config = s.config ++ [e] := rfl
@[simp] theorem emit_inputs (e : ConfigEvent) (s : State) : (emit e s).inputs = s.inputs := rfl
@[simp] theorem emit_target (e : ConfigEvent) (s : State) : (emit e s).target = s.target := rfl
@[simp] theorem emit_shifts (e : ConfigEvent) (s : State) : (emit e s).shifts = s.shifts := rfl
@[simp] theorem emit_sampled (e : ConfigEvent) (s : State) : (emit e s).sampled = s.sampled := rfl
@[simp] theorem emit_polled (e : ConfigEvent) (s : State) : (emit e s).polled = s.polled := rfl
@[simp] theorem emit_draws (e : ConfigEvent) (s : State) : (emit e s).draws = s.draws := rfl

/-! ### `wireOut` -/

@[simp] theorem wireOut_cfg (b : Bool) (s : State) : (wireOut b s).cfg = s.cfg := rfl
@[simp] theorem wireOut_session (b : Bool) (s : State) : (wireOut b s).session = s.session := rfl
@[simp] theorem wireOut_cmd (b : Bool) (s : State) : (wireOut b s).cmd = s.cmd := rfl
@[simp] theorem wireOut_busy (b : Bool) (s : State) : (wireOut b s).busy = s.busy := rfl
@[simp] theorem wireOut_upc (b : Bool) (s : State) : (wireOut b s).upc = s.upc := rfl
@[simp] theorem wireOut_reply (b : Bool) (s : State) : (wireOut b s).reply = s.reply := rfl
@[simp] theorem wireOut_pin (b : Bool) (s : State) : (wireOut b s).pin = s.pin := rfl
@[simp] theorem wireOut_shifterWidth (b : Bool) (s : State) : (wireOut b s).shifterWidth = s.shifterWidth := rfl
@[simp] theorem wireOut_rxbuf (b : Bool) (s : State) : (wireOut b s).rxbuf = s.rxbuf := rfl
@[simp] theorem wireOut_lineData (b : Bool) (s : State) : (wireOut b s).lineData = s.lineData := rfl
@[simp] theorem wireOut_lineClock (b : Bool) (s : State) : (wireOut b s).lineClock = s.lineClock := rfl
@[simp] theorem wireOut_slots (b : Bool) (s : State) : (wireOut b s).slots = s.slots := rfl
@[simp] theorem wireOut_wire (b : Bool) (s : State) : (wireOut b s).wire = s.wire ++ [⟨.drive, b⟩] := rfl
@[simp] theorem wireOut_calls (b : Bool) (s : State) : (wireOut b s).calls = s.calls := rfl
@[simp] theorem wireOut_config (b : Bool) (s : State) : (wireOut b s).config = s.config := rfl
@[simp] theorem wireOut_inputs (b : Bool) (s : State) : (wireOut b s).inputs = s.inputs := rfl
@[simp] theorem wireOut_target (b : Bool) (s : State) : (wireOut b s).target = s.target := rfl
@[simp] theorem wireOut_shifts (b : Bool) (s : State) : (wireOut b s).shifts = s.shifts := rfl
@[simp] theorem wireOut_sampled (b : Bool) (s : State) : (wireOut b s).sampled = s.sampled := rfl
@[simp] theorem wireOut_polled (b : Bool) (s : State) : (wireOut b s).polled = s.polled := rfl
@[simp] theorem wireOut_draws (b : Bool) (s : State) : (wireOut b s).draws = s.draws := rfl

/-! ### `clobberRx` -/

@[simp] theorem clobberRx_cfg (s : State) : (clobberRx s).cfg = s.cfg := rfl
@[simp] theorem clobberRx_session (s : State) : (clobberRx s).session = s.session := rfl
@[simp] theorem clobberRx_cmd (s : State) : (clobberRx s).cmd = s.cmd := rfl
@[simp] theorem clobberRx_busy (s : State) : (clobberRx s).busy = s.busy := rfl
@[simp] theorem clobberRx_upc (s : State) : (clobberRx s).upc = s.upc := rfl
@[simp] theorem clobberRx_reply (s : State) : (clobberRx s).reply = s.reply := rfl
@[simp] theorem clobberRx_pin (s : State) : (clobberRx s).pin = s.pin := rfl
@[simp] theorem clobberRx_shifterWidth (s : State) : (clobberRx s).shifterWidth = s.shifterWidth := rfl
@[simp] theorem clobberRx_rxbuf (s : State) : (clobberRx s).rxbuf = Config.freeRx s.draws := rfl
@[simp] theorem clobberRx_lineData (s : State) : (clobberRx s).lineData = s.lineData := rfl
@[simp] theorem clobberRx_lineClock (s : State) : (clobberRx s).lineClock = s.lineClock := rfl
@[simp] theorem clobberRx_slots (s : State) : (clobberRx s).slots = s.slots := rfl
@[simp] theorem clobberRx_wire (s : State) : (clobberRx s).wire = s.wire := rfl
@[simp] theorem clobberRx_calls (s : State) : (clobberRx s).calls = s.calls := rfl
@[simp] theorem clobberRx_config (s : State) : (clobberRx s).config = s.config := rfl
@[simp] theorem clobberRx_inputs (s : State) : (clobberRx s).inputs = s.inputs := rfl
@[simp] theorem clobberRx_target (s : State) : (clobberRx s).target = s.target := rfl
@[simp] theorem clobberRx_shifts (s : State) : (clobberRx s).shifts = s.shifts := rfl
@[simp] theorem clobberRx_sampled (s : State) : (clobberRx s).sampled = s.sampled := rfl
@[simp] theorem clobberRx_polled (s : State) : (clobberRx s).polled = s.polled := rfl
@[simp] theorem clobberRx_draws (s : State) : (clobberRx s).draws = s.draws + 1 := rfl

/-! ### `takeShift` -/

@[simp] theorem takeShift_cfg (s : State) : (takeShift s).cfg = s.cfg := rfl
@[simp] theorem takeShift_session (s : State) : (takeShift s).session = s.session := rfl
@[simp] theorem takeShift_cmd (s : State) : (takeShift s).cmd = s.cmd := rfl
@[simp] theorem takeShift_busy (s : State) : (takeShift s).busy = s.busy := rfl
@[simp] theorem takeShift_upc (s : State) : (takeShift s).upc = s.upc := rfl
@[simp] theorem takeShift_reply (s : State) : (takeShift s).reply = s.reply := rfl
@[simp] theorem takeShift_pin (s : State) : (takeShift s).pin = s.pin := rfl
@[simp] theorem takeShift_shifterWidth (s : State) : (takeShift s).shifterWidth = s.shifterWidth := rfl
@[simp] theorem takeShift_rxbuf (s : State) : (takeShift s).rxbuf = s.rxbuf := rfl
@[simp] theorem takeShift_lineData (s : State) : (takeShift s).lineData = s.lineData := rfl
@[simp] theorem takeShift_lineClock (s : State) : (takeShift s).lineClock = s.lineClock := rfl
@[simp] theorem takeShift_slots (s : State) : (takeShift s).slots = s.slots := rfl
@[simp] theorem takeShift_wire (s : State) : (takeShift s).wire = s.wire := rfl
@[simp] theorem takeShift_calls (s : State) : (takeShift s).calls = s.calls := rfl
@[simp] theorem takeShift_config (s : State) : (takeShift s).config = s.config := rfl
@[simp] theorem takeShift_inputs (s : State) : (takeShift s).inputs = s.inputs := rfl
@[simp] theorem takeShift_target (s : State) : (takeShift s).target = s.target := rfl
@[simp] theorem takeShift_shifts (s : State) : (takeShift s).shifts = s.shifts.drop 1 := rfl
@[simp] theorem takeShift_sampled (s : State) : (takeShift s).sampled = s.sampled := rfl
@[simp] theorem takeShift_polled (s : State) : (takeShift s).polled = s.polled + 1 := rfl
@[simp] theorem takeShift_draws (s : State) : (takeShift s).draws = s.draws := rfl

/-! ### `pinToDrive` -/

@[simp] theorem pinToDrive_cfg (s : State) : (pinToDrive s).cfg = s.cfg := rfl
@[simp] theorem pinToDrive_session (s : State) : (pinToDrive s).session = { s.session with dir := .drive } := rfl
@[simp] theorem pinToDrive_cmd (s : State) : (pinToDrive s).cmd = s.cmd := rfl
@[simp] theorem pinToDrive_busy (s : State) : (pinToDrive s).busy = s.busy := rfl
@[simp] theorem pinToDrive_upc (s : State) : (pinToDrive s).upc = s.upc := rfl
@[simp] theorem pinToDrive_reply (s : State) : (pinToDrive s).reply = s.reply := rfl
@[simp] theorem pinToDrive_pin (s : State) : (pinToDrive s).pin = .pushPull := rfl
@[simp] theorem pinToDrive_shifterWidth (s : State) : (pinToDrive s).shifterWidth = s.shifterWidth := rfl
@[simp] theorem pinToDrive_rxbuf (s : State) : (pinToDrive s).rxbuf = s.rxbuf := rfl
@[simp] theorem pinToDrive_lineData (s : State) : (pinToDrive s).lineData = s.lineData := rfl
@[simp] theorem pinToDrive_lineClock (s : State) : (pinToDrive s).lineClock = s.lineClock := rfl
@[simp] theorem pinToDrive_slots (s : State) : (pinToDrive s).slots = s.slots := rfl
@[simp] theorem pinToDrive_wire (s : State) : (pinToDrive s).wire = s.wire := rfl
@[simp] theorem pinToDrive_calls (s : State) : (pinToDrive s).calls = s.calls := rfl
@[simp] theorem pinToDrive_config (s : State) : (pinToDrive s).config = s.config ++ [.reconfPin .drive] := rfl
@[simp] theorem pinToDrive_inputs (s : State) : (pinToDrive s).inputs = s.inputs := rfl
@[simp] theorem pinToDrive_target (s : State) : (pinToDrive s).target = s.target := rfl
@[simp] theorem pinToDrive_shifts (s : State) : (pinToDrive s).shifts = s.shifts := rfl
@[simp] theorem pinToDrive_sampled (s : State) : (pinToDrive s).sampled = s.sampled := rfl
@[simp] theorem pinToDrive_polled (s : State) : (pinToDrive s).polled = s.polled := rfl
@[simp] theorem pinToDrive_draws (s : State) : (pinToDrive s).draws = s.draws := rfl

/-! ### `pinToSense` -/

@[simp] theorem pinToSense_cfg (s : State) : (pinToSense s).cfg = s.cfg := rfl
@[simp] theorem pinToSense_session (s : State) : (pinToSense s).session = { s.session with dir := .sense } := rfl
@[simp] theorem pinToSense_cmd (s : State) : (pinToSense s).cmd = s.cmd := rfl
@[simp] theorem pinToSense_busy (s : State) : (pinToSense s).busy = s.busy := rfl
@[simp] theorem pinToSense_upc (s : State) : (pinToSense s).upc = s.upc := rfl
@[simp] theorem pinToSense_reply (s : State) : (pinToSense s).reply = s.reply := rfl
@[simp] theorem pinToSense_pin (s : State) : (pinToSense s).pin = .input s.cfg.pinSenseMode := rfl
@[simp] theorem pinToSense_shifterWidth (s : State) : (pinToSense s).shifterWidth = s.shifterWidth := rfl
@[simp] theorem pinToSense_rxbuf (s : State) : (pinToSense s).rxbuf = s.rxbuf := rfl
@[simp] theorem pinToSense_lineData (s : State) : (pinToSense s).lineData = s.lineData := rfl
@[simp] theorem pinToSense_lineClock (s : State) : (pinToSense s).lineClock = s.lineClock := rfl
@[simp] theorem pinToSense_slots (s : State) : (pinToSense s).slots = s.slots := rfl
@[simp] theorem pinToSense_wire (s : State) : (pinToSense s).wire = s.wire := rfl
@[simp] theorem pinToSense_calls (s : State) : (pinToSense s).calls = s.calls := rfl
@[simp] theorem pinToSense_config (s : State) : (pinToSense s).config = s.config ++ [.reconfPin .sense] := rfl
@[simp] theorem pinToSense_inputs (s : State) : (pinToSense s).inputs = s.inputs := rfl
@[simp] theorem pinToSense_target (s : State) : (pinToSense s).target = s.target := rfl
@[simp] theorem pinToSense_shifts (s : State) : (pinToSense s).shifts = s.shifts := rfl
@[simp] theorem pinToSense_sampled (s : State) : (pinToSense s).sampled = s.sampled := rfl
@[simp] theorem pinToSense_polled (s : State) : (pinToSense s).polled = s.polled := rfl
@[simp] theorem pinToSense_draws (s : State) : (pinToSense s).draws = s.draws := rfl

/-! ### `finish` -/

@[simp] theorem finish_cfg (r : Reply) (s : State) : (finish r s).cfg = s.cfg := rfl
@[simp] theorem finish_session (r : Reply) (s : State) : (finish r s).session = s.session := rfl
@[simp] theorem finish_cmd (r : Reply) (s : State) : (finish r s).cmd = s.cmd := rfl
@[simp] theorem finish_busy (r : Reply) (s : State) : (finish r s).busy = false := rfl
@[simp] theorem finish_upc (r : Reply) (s : State) : (finish r s).upc = s.upc := rfl
@[simp] theorem finish_reply (r : Reply) (s : State) : (finish r s).reply = r := rfl
@[simp] theorem finish_pin (r : Reply) (s : State) : (finish r s).pin = s.pin := rfl
@[simp] theorem finish_shifterWidth (r : Reply) (s : State) : (finish r s).shifterWidth = s.shifterWidth := rfl
@[simp] theorem finish_rxbuf (r : Reply) (s : State) : (finish r s).rxbuf = s.rxbuf := rfl
@[simp] theorem finish_lineData (r : Reply) (s : State) : (finish r s).lineData = Config.freeDataLevel s.draws := rfl
@[simp] theorem finish_lineClock (r : Reply) (s : State) :
    (finish r s).lineClock = Config.freeClockLevel s.draws := rfl
@[simp] theorem finish_slots (r : Reply) (s : State) : (finish r s).slots = s.slots := rfl
@[simp] theorem finish_wire (r : Reply) (s : State) : (finish r s).wire = s.wire := rfl
@[simp] theorem finish_calls (r : Reply) (s : State) : (finish r s).calls = s.calls := rfl
@[simp] theorem finish_config (r : Reply) (s : State) : (finish r s).config = s.config := rfl
@[simp] theorem finish_inputs (r : Reply) (s : State) : (finish r s).inputs = s.inputs := rfl
@[simp] theorem finish_target (r : Reply) (s : State) : (finish r s).target = s.target := rfl
@[simp] theorem finish_shifts (r : Reply) (s : State) : (finish r s).shifts = s.shifts := rfl
@[simp] theorem finish_sampled (r : Reply) (s : State) : (finish r s).sampled = s.sampled := rfl
@[simp] theorem finish_polled (r : Reply) (s : State) : (finish r s).polled = s.polled := rfl
@[simp] theorem finish_draws (r : Reply) (s : State) : (finish r s).draws = s.draws + 1 := rfl

/-! ### `raiseFatal` -/

@[simp] theorem raiseFatal_cfg (c : Cause) (s : State) : (raiseFatal c s).cfg = s.cfg := rfl
@[simp] theorem raiseFatal_session (c : Cause) (s : State) :
    (raiseFatal c s).session = { s.session with faulted := true, cause := c, faultCmd := s.cmd } := rfl
@[simp] theorem raiseFatal_cmd (c : Cause) (s : State) : (raiseFatal c s).cmd = s.cmd := rfl
@[simp] theorem raiseFatal_busy (c : Cause) (s : State) : (raiseFatal c s).busy = false := rfl
@[simp] theorem raiseFatal_upc (c : Cause) (s : State) : (raiseFatal c s).upc = s.upc := rfl
@[simp] theorem raiseFatal_reply (c : Cause) (s : State) : (raiseFatal c s).reply = .fatal c := rfl
@[simp] theorem raiseFatal_pin (c : Cause) (s : State) : (raiseFatal c s).pin = s.pin := rfl
@[simp] theorem raiseFatal_shifterWidth (c : Cause) (s : State) :
    (raiseFatal c s).shifterWidth = s.shifterWidth := rfl
@[simp] theorem raiseFatal_rxbuf (c : Cause) (s : State) : (raiseFatal c s).rxbuf = s.rxbuf := rfl
@[simp] theorem raiseFatal_lineData (c : Cause) (s : State) :
    (raiseFatal c s).lineData = Config.freeDataLevel s.draws := rfl
@[simp] theorem raiseFatal_lineClock (c : Cause) (s : State) :
    (raiseFatal c s).lineClock = Config.freeClockLevel s.draws := rfl
@[simp] theorem raiseFatal_slots (c : Cause) (s : State) : (raiseFatal c s).slots = s.slots := rfl
@[simp] theorem raiseFatal_wire (c : Cause) (s : State) : (raiseFatal c s).wire = s.wire := rfl
@[simp] theorem raiseFatal_calls (c : Cause) (s : State) : (raiseFatal c s).calls = s.calls := rfl
@[simp] theorem raiseFatal_config (c : Cause) (s : State) : (raiseFatal c s).config = s.config := rfl
@[simp] theorem raiseFatal_inputs (c : Cause) (s : State) : (raiseFatal c s).inputs = s.inputs := rfl
@[simp] theorem raiseFatal_target (c : Cause) (s : State) : (raiseFatal c s).target = s.target := rfl
@[simp] theorem raiseFatal_shifts (c : Cause) (s : State) : (raiseFatal c s).shifts = s.shifts := rfl
@[simp] theorem raiseFatal_sampled (c : Cause) (s : State) : (raiseFatal c s).sampled = s.sampled := rfl
@[simp] theorem raiseFatal_polled (c : Cause) (s : State) : (raiseFatal c s).polled = s.polled := rfl
@[simp] theorem raiseFatal_draws (c : Cause) (s : State) : (raiseFatal c s).draws = s.draws + 1 := rfl

/-! ### `refuseFaulted` -/

@[simp] theorem refuseFaulted_cfg (s : State) : (refuseFaulted s).cfg = s.cfg := rfl
@[simp] theorem refuseFaulted_session (s : State) : (refuseFaulted s).session = s.session := rfl
@[simp] theorem refuseFaulted_cmd (s : State) : (refuseFaulted s).cmd = s.cmd := rfl
@[simp] theorem refuseFaulted_busy (s : State) : (refuseFaulted s).busy = false := rfl
@[simp] theorem refuseFaulted_upc (s : State) : (refuseFaulted s).upc = s.upc := rfl
@[simp] theorem refuseFaulted_reply (s : State) : (refuseFaulted s).reply = .refused s.session.cause := rfl
@[simp] theorem refuseFaulted_pin (s : State) : (refuseFaulted s).pin = s.pin := rfl
@[simp] theorem refuseFaulted_shifterWidth (s : State) : (refuseFaulted s).shifterWidth = s.shifterWidth := rfl
@[simp] theorem refuseFaulted_rxbuf (s : State) : (refuseFaulted s).rxbuf = s.rxbuf := rfl
@[simp] theorem refuseFaulted_lineData (s : State) : (refuseFaulted s).lineData = Config.freeDataLevel s.draws := rfl
@[simp] theorem refuseFaulted_lineClock (s : State) :
    (refuseFaulted s).lineClock = Config.freeClockLevel s.draws := rfl
@[simp] theorem refuseFaulted_slots (s : State) : (refuseFaulted s).slots = s.slots := rfl
@[simp] theorem refuseFaulted_wire (s : State) : (refuseFaulted s).wire = s.wire := rfl
@[simp] theorem refuseFaulted_calls (s : State) : (refuseFaulted s).calls = s.calls := rfl
@[simp] theorem refuseFaulted_config (s : State) : (refuseFaulted s).config = s.config := rfl
@[simp] theorem refuseFaulted_inputs (s : State) : (refuseFaulted s).inputs = s.inputs := rfl
@[simp] theorem refuseFaulted_target (s : State) : (refuseFaulted s).target = s.target := rfl
@[simp] theorem refuseFaulted_shifts (s : State) : (refuseFaulted s).shifts = s.shifts := rfl
@[simp] theorem refuseFaulted_sampled (s : State) : (refuseFaulted s).sampled = s.sampled := rfl
@[simp] theorem refuseFaulted_polled (s : State) : (refuseFaulted s).polled = s.polled := rfl
@[simp] theorem refuseFaulted_draws (s : State) : (refuseFaulted s).draws = s.draws + 1 := rfl

/-! ### `hang` -/

@[simp] theorem hang_cfg (s : State) : (hang s).cfg = s.cfg := rfl
@[simp] theorem hang_session (s : State) : (hang s).session = s.session := rfl
@[simp] theorem hang_cmd (s : State) : (hang s).cmd = s.cmd := rfl
@[simp] theorem hang_busy (s : State) : (hang s).busy = true := rfl
@[simp] theorem hang_upc (s : State) : (hang s).upc = s.upc := rfl
@[simp] theorem hang_reply (s : State) : (hang s).reply = .pending := rfl
@[simp] theorem hang_pin (s : State) : (hang s).pin = s.pin := rfl
@[simp] theorem hang_shifterWidth (s : State) : (hang s).shifterWidth = s.shifterWidth := rfl
@[simp] theorem hang_rxbuf (s : State) : (hang s).rxbuf = s.rxbuf := rfl
@[simp] theorem hang_lineData (s : State) : (hang s).lineData = s.lineData := rfl
@[simp] theorem hang_lineClock (s : State) : (hang s).lineClock = s.lineClock := rfl
@[simp] theorem hang_slots (s : State) : (hang s).slots = s.slots := rfl
@[simp] theorem hang_wire (s : State) : (hang s).wire = s.wire := rfl
@[simp] theorem hang_calls (s : State) : (hang s).calls = s.calls := rfl
@[simp] theorem hang_config (s : State) : (hang s).config = s.config := rfl
@[simp] theorem hang_inputs (s : State) : (hang s).inputs = s.inputs := rfl
@[simp] theorem hang_target (s : State) : (hang s).target = s.target := rfl
@[simp] theorem hang_shifts (s : State) : (hang s).shifts = s.shifts := rfl
@[simp] theorem hang_sampled (s : State) : (hang s).sampled = s.sampled := rfl
@[simp] theorem hang_polled (s : State) : (hang s).polled = s.polled := rfl
@[simp] theorem hang_draws (s : State) : (hang s).draws = s.draws := rfl

/-! ### `accept` -/

@[simp] theorem accept_cfg (w : CommandWord) (rest : List Input) (s : State) : (accept w rest s).cfg = s.cfg := rfl
@[simp] theorem accept_session (w : CommandWord) (rest : List Input) (s : State) :
    (accept w rest s).session = s.session := rfl
@[simp] theorem accept_cmd (w : CommandWord) (rest : List Input) (s : State) : (accept w rest s).cmd = w := rfl
@[simp] theorem accept_busy (w : CommandWord) (rest : List Input) (s : State) : (accept w rest s).busy = true := rfl
@[simp] theorem accept_upc (w : CommandWord) (rest : List Input) (s : State) : (accept w rest s).upc = 0 := rfl
@[simp] theorem accept_reply (w : CommandWord) (rest : List Input) (s : State) :
    (accept w rest s).reply = .pending := rfl
@[simp] theorem accept_pin (w : CommandWord) (rest : List Input) (s : State) : (accept w rest s).pin = s.pin := rfl
@[simp] theorem accept_shifterWidth (w : CommandWord) (rest : List Input) (s : State) :
    (accept w rest s).shifterWidth = s.shifterWidth := rfl
@[simp] theorem accept_rxbuf (w : CommandWord) (rest : List Input) (s : State) :
    (accept w rest s).rxbuf = s.rxbuf := rfl
@[simp] theorem accept_lineData (w : CommandWord) (rest : List Input) (s : State) :
    (accept w rest s).lineData = s.lineData := rfl
@[simp] theorem accept_lineClock (w : CommandWord) (rest : List Input) (s : State) :
    (accept w rest s).lineClock = s.lineClock := rfl
@[simp] theorem accept_slots (w : CommandWord) (rest : List Input) (s : State) :
    (accept w rest s).slots = s.slots := rfl
@[simp] theorem accept_wire (w : CommandWord) (rest : List Input) (s : State) : (accept w rest s).wire = s.wire := rfl
@[simp] theorem accept_calls (w : CommandWord) (rest : List Input) (s : State) :
    (accept w rest s).calls = s.calls := rfl
@[simp] theorem accept_config (w : CommandWord) (rest : List Input) (s : State) :
    (accept w rest s).config = s.config := rfl
@[simp] theorem accept_inputs (w : CommandWord) (rest : List Input) (s : State) :
    (accept w rest s).inputs = rest := rfl
@[simp] theorem accept_target (w : CommandWord) (rest : List Input) (s : State) :
    (accept w rest s).target = s.target := rfl
@[simp] theorem accept_shifts (w : CommandWord) (rest : List Input) (s : State) :
    (accept w rest s).shifts = s.shifts := rfl
@[simp] theorem accept_sampled (w : CommandWord) (rest : List Input) (s : State) :
    (accept w rest s).sampled = s.sampled := rfl
@[simp] theorem accept_polled (w : CommandWord) (rest : List Input) (s : State) :
    (accept w rest s).polled = s.polled := rfl
@[simp] theorem accept_draws (w : CommandWord) (rest : List Input) (s : State) :
    (accept w rest s).draws = s.draws := rfl

/-! ### `widthToReset` -/

@[simp] theorem widthToReset_cfg (s : State) : (widthToReset s).cfg = s.cfg := rfl
@[simp] theorem widthToReset_session (s : State) :
    (widthToReset s).session = { s.session with width := BitVec.ofNat 5 s.cfg.widthReset } := rfl
@[simp] theorem widthToReset_cmd (s : State) : (widthToReset s).cmd = s.cmd := rfl
@[simp] theorem widthToReset_busy (s : State) : (widthToReset s).busy = s.busy := rfl
@[simp] theorem widthToReset_upc (s : State) : (widthToReset s).upc = s.upc := rfl
@[simp] theorem widthToReset_reply (s : State) : (widthToReset s).reply = s.reply := rfl
@[simp] theorem widthToReset_pin (s : State) : (widthToReset s).pin = s.pin := rfl
@[simp] theorem widthToReset_shifterWidth (s : State) :
    (widthToReset s).shifterWidth = BitVec.ofNat 5 s.cfg.widthReset := rfl
@[simp] theorem widthToReset_rxbuf (s : State) : (widthToReset s).rxbuf = s.rxbuf := rfl
@[simp] theorem widthToReset_lineData (s : State) : (widthToReset s).lineData = s.lineData := rfl
@[simp] theorem widthToReset_lineClock (s : State) : (widthToReset s).lineClock = s.lineClock := rfl
@[simp] theorem widthToReset_slots (s : State) : (widthToReset s).slots = s.slots := rfl
@[simp] theorem widthToReset_wire (s : State) : (widthToReset s).wire = s.wire := rfl
@[simp] theorem widthToReset_calls (s : State) : (widthToReset s).calls = s.calls := rfl
@[simp] theorem widthToReset_config (s : State) :
    (widthToReset s).config = s.config ++ [.reconfWidth s.cfg.widthReset] := rfl
@[simp] theorem widthToReset_inputs (s : State) : (widthToReset s).inputs = s.inputs := rfl
@[simp] theorem widthToReset_target (s : State) : (widthToReset s).target = s.target := rfl
@[simp] theorem widthToReset_shifts (s : State) : (widthToReset s).shifts = s.shifts := rfl
@[simp] theorem widthToReset_sampled (s : State) : (widthToReset s).sampled = s.sampled := rfl
@[simp] theorem widthToReset_polled (s : State) : (widthToReset s).polled = s.polled := rfl
@[simp] theorem widthToReset_draws (s : State) : (widthToReset s).draws = s.draws := rfl

/-! ### `bindTable` -/

@[simp] theorem bindTable_cfg (s : State) : (bindTable s).cfg = s.cfg := rfl
@[simp] theorem bindTable_session (s : State) :
    (bindTable s).session = { s.session with carryValid := false, bound := true } := rfl
@[simp] theorem bindTable_cmd (s : State) : (bindTable s).cmd = s.cmd := rfl
@[simp] theorem bindTable_busy (s : State) : (bindTable s).busy = s.busy := rfl
@[simp] theorem bindTable_upc (s : State) : (bindTable s).upc = s.upc := rfl
@[simp] theorem bindTable_reply (s : State) : (bindTable s).reply = s.reply := rfl
@[simp] theorem bindTable_pin (s : State) : (bindTable s).pin = s.pin := rfl
@[simp] theorem bindTable_shifterWidth (s : State) : (bindTable s).shifterWidth = s.shifterWidth := rfl
@[simp] theorem bindTable_rxbuf (s : State) : (bindTable s).rxbuf = s.rxbuf := rfl
@[simp] theorem bindTable_lineData (s : State) : (bindTable s).lineData = s.lineData := rfl
@[simp] theorem bindTable_lineClock (s : State) : (bindTable s).lineClock = s.lineClock := rfl
@[simp] theorem bindTable_slots (s : State) : (bindTable s).slots = capabilityTable := rfl
@[simp] theorem bindTable_wire (s : State) : (bindTable s).wire = s.wire := rfl
@[simp] theorem bindTable_calls (s : State) : (bindTable s).calls = s.calls := rfl
@[simp] theorem bindTable_config (s : State) : (bindTable s).config = s.config := rfl
@[simp] theorem bindTable_inputs (s : State) : (bindTable s).inputs = s.inputs := rfl
@[simp] theorem bindTable_target (s : State) : (bindTable s).target = s.target := rfl
@[simp] theorem bindTable_shifts (s : State) : (bindTable s).shifts = s.shifts := rfl
@[simp] theorem bindTable_sampled (s : State) : (bindTable s).sampled = s.sampled := rfl
@[simp] theorem bindTable_polled (s : State) : (bindTable s).polled = s.polled := rfl
@[simp] theorem bindTable_draws (s : State) : (bindTable s).draws = s.draws := rfl

end Sys2Proof.Machine
end

