-- ==== Sys2Proof/Laws/Wire.lean ====
section
/-! SUPPORT. Closed forms of the wire primitives (spec 20_memory.md R54, R65): what a run of sampled or presented
cycles does, so that no later proof goes through the recursion again. -/

namespace Sys2Proof.Machine

@[simp] theorem cyclesOf_nil (m : Dir) : cyclesOf m [] = [] := rfl

@[simp] theorem cyclesOf_length (m : Dir) (bits : List Bool) : (cyclesOf m bits).length = bits.length := by
  simp [cyclesOf]

theorem cyclesOf_append (m : Dir) (a b : List Bool) : cyclesOf m (a ++ b) = cyclesOf m a ++ cyclesOf m b := by
  simp [cyclesOf]

theorem mode_of_mem_cyclesOf {m : Dir} {bits : List Bool} {c : Cyc} (h : c ∈ cyclesOf m bits) : c.mode = m := by
  simp only [cyclesOf, List.mem_map] at h
  obtain ⟨b, _, rfl⟩ := h
  rfl

@[simp] theorem coming_length (s : State) (n : Nat) : (s.coming n).length = n := by simp [State.coming]

@[simp] theorem lowBits_length (v : Word) (n : Nat) : (lowBits v n).length = n := by simp [lowBits]

/-- The target's bits depend only on what is left of its stream and on how many have been sampled. -/
theorem oracle_congr {s t : State} (ht : t.target = s.target) (hn : t.sampled = s.sampled) : t.oracle = s.oracle := by
  funext i
  simp [State.oracle, ht, hn]

/-- After `n` sampled cycles the next bits are the later ones of the same stream. -/
theorem oracle_drop {s t : State} {n : Nat} (ht : t.target = s.target.drop n) (hn : t.sampled = s.sampled + n)
    (i : Nat) : t.oracle i = s.oracle (n + i) := by
  simp [State.oracle, ht, hn, List.getElem?_drop, Nat.add_assoc]

theorem coming_congr {s t : State} (h : t.oracle = s.oracle) (n : Nat) : t.coming n = s.coming n := by
  simp [State.coming, h]

/-- A run of sampled cycles is a first part and the rest. -/
theorem coming_add {s t : State} {n : Nat} (ht : t.target = s.target.drop n) (hn : t.sampled = s.sampled + n)
    (m : Nat) : s.coming (n + m) = s.coming n ++ t.coming m := by
  simp only [State.coming, List.range_add, List.map_append, List.map_map]
  congr 1
  refine List.map_congr_left fun i _ => ?_
  simpa using (oracle_drop ht hn i).symm

/-- `n` cycles of `WireIn()` return the target's next `n` bits and put them on the wire trace. -/
theorem sampleBits_eq (n : Nat) (s : State) :
    sampleBits n s = (s.coming n,
      { s with
        target := s.target.drop n
        sampled := s.sampled + n
        wire := s.wire ++ cyclesOf .sense (s.coming n) }) := by
  induction n generalizing s with
  | zero => simp [sampleBits, State.coming]
  | succ n ih =>
    have hc : s.coming (n + 1) = s.oracle 0 :: (wireIn s).2.coming n := by
      rw [Nat.add_comm n 1, coming_add (s := s) (t := (wireIn s).2) (n := 1) rfl rfl]
      rfl
    simp only [sampleBits, ih, hc]
    simp [wireIn, cyclesOf, Nat.add_assoc, Nat.add_comm 1 n]

/-- `n` cycles of `WireOut` from bit `i` on put the bits on the wire trace and change nothing else. -/
theorem presentBits_eq (b : Word) (i n : Nat) (s : State) :
    presentBits b i n s =
      { s with wire := s.wire ++ cyclesOf .drive ((List.range n).map fun j => b.getLsbD (i + j)) } := by
  induction n generalizing i s with
  | zero => simp [presentBits, cyclesOf]
  | succ n ih =>
    simp only [presentBits, ih, List.range_succ_eq_map, List.map_cons, List.map_map]
    simp [wireOut, cyclesOf, Function.comp_def, Nat.add_assoc, Nat.add_comm 1]

/-- From bit 0 on these are the low bits, bit 0 first (R52). -/
theorem presentBits_zero (b : Word) (n : Nat) (s : State) :
    presentBits b 0 n s = { s with wire := s.wire ++ cyclesOf .drive (lowBits b n) } := by
  simp [presentBits_eq, lowBits]

end Sys2Proof.Machine
end

