-- ==== Sys2Proof/Laws/Operands.lean ====
section
/-! SUPPORT. The operand forms bit by bit: chunks put together are one continuous stream (spec 20_memory.md R52, R53;
30_encoding.md R77; 42_sequence_engine.md R141), and parity as an exclusive or (R140). -/

namespace Sys2Proof.Machine

/-- Bit `i` of the word is the i-th bit in time (R52). -/
theorem getLsbD_bitsToWord (bits : List Bool) (i : Nat) :
    (bitsToWord bits).getLsbD i = (decide (i < 32) && bits.getD i false) := by
  induction bits generalizing i with
  | nil => simp [bitsToWord]
  | cons b bs ih =>
    cases i with
    | zero => simp [bitsToWord]
    | succ i =>
      by_cases h : i + 1 < 32
      · have := ih i
        simp only [show i < 32 by omega, decide_true, Bool.true_and] at this
        simp [bitsToWord, h, -BitVec.getLsbD_eq_getElem, this]
      · simp [bitsToWord, h]

/-- The list of 33 bits as a value, bit `i` the i-th bit in time: what the read loop builds (R77). -/
def bitsToWide : List Bool → BitVec 33
  | [] => 0
  | b :: bs => (bitsToWide bs <<< 1) ||| (BitVec.ofBool b).setWidth 33

theorem getLsbD_bitsToWide (bits : List Bool) (i : Nat) :
    (bitsToWide bits).getLsbD i = (decide (i < 33) && bits.getD i false) := by
  induction bits generalizing i with
  | nil => simp [bitsToWide]
  | cons b bs ih =>
    cases i with
    | zero => simp [bitsToWide]
    | succ i =>
      by_cases h : i + 1 < 33
      · have := ih i
        simp only [show i < 33 by omega, decide_true, Bool.true_and] at this
        simp [bitsToWide, h, -BitVec.getLsbD_eq_getElem, this]
      · simp [bitsToWide, h]

/-- One more chunk of at most 32 bits extends the stream (R77). -/
theorem insertChunk_bitsToWide (old new : List Bool) (h : new.length ≤ 32) :
    insertChunk (bitsToWide old) (bitsToWord new) old.length = bitsToWide (old ++ new) := by
  refine BitVec.eq_of_getLsbD_eq fun i hi => ?_
  simp only [insertChunk, BitVec.getLsbD_or, BitVec.getLsbD_shiftLeft, BitVec.getLsbD_setWidth,
    getLsbD_bitsToWord, getLsbD_bitsToWide, List.getD_eq_getElem?_getD, List.getElem?_append]
  by_cases hlt : i < old.length
  · simp [hlt, hi]
  · have hge : old.length ≤ i := by omega
    by_cases h32 : i - old.length < 32
    · simp [hi, hlt, h32, show i - old.length < 33 by omega]
    · have hout : new.length ≤ i - old.length := by omega
      simp [hi, hlt, h32, hout]

@[simp] theorem bitsToWide_nil : bitsToWide [] = 0 := rfl

/-- Bit `i` of a chunk is bit `o + i` of the value (R77). -/
theorem getLsbD_chunkAt (x : Word) (o w i : Nat) :
    (chunkAt x o w).getLsbD i = (decide (i < 32) && decide (i < w) && x.getLsbD (o + i)) := by
  simp only [chunkAt, BitVec.getLsbD_setWidth, BitVec.getLsbD_extractLsb']
  by_cases h : i < 32 <;> by_cases h' : i < w <;> simp [h, h']

/-- The low bits of a chunk are the bits of the value at its offset. -/
theorem lowBits_chunkAt (x : Word) (o w : Nat) (hw : w ≤ 32) :
    lowBits (chunkAt x o w) w = (List.range w).map fun i => x.getLsbD (o + i) := by
  refine List.map_congr_left fun i hi => ?_
  have : i < w := List.mem_range.mp hi
  rw [getLsbD_chunkAt]
  simp [this, show i < 32 by omega]

/-- The bits the shifts of a chunk list present, one after the other, are the value's bits in order: the wire does
not depend on the chunking (R53). -/
theorem bits_of_outShifts (x : Word) (o : Nat) (ws : List Nat) (hw : ∀ w ∈ ws, w ≤ 32) :
    ((outShifts x o ws).flatMap fun p => lowBits p.1 p.2) = (List.range ws.sum).map fun i => x.getLsbD (o + i) := by
  induction ws generalizing o with
  | nil => simp [outShifts]
  | cons w ws ih =>
    have h1 : w ≤ 32 := hw w (by simp)
    have h2 : ∀ v ∈ ws, v ≤ 32 := fun v hv => hw v (by simp [hv])
    simp only [outShifts, List.flatMap_cons, ih _ h2, lowBits_chunkAt x o w h1, List.sum_cons, List.range_add,
      List.map_append, List.map_map]
    congr 1
    refine List.map_congr_left fun i _ => ?_
    simp [Nat.add_assoc]

@[simp] theorem counts_of_outShifts (x : Word) (o : Nat) (ws : List Nat) :
    (outShifts x o ws).map Prod.snd = ws := by
  induction ws generalizing o with
  | nil => rfl
  | cons w ws ih => simp [outShifts, ih]

@[simp] theorem outShifts_length (x : Word) (o : Nat) (ws : List Nat) : (outShifts x o ws).length = ws.length := by
  induction ws generalizing o with
  | nil => rfl
  | cons w ws ih => simp [outShifts, ih]

/-- Bit 0 of the data word is the carry (R125). -/
@[simp] theorem getLsbD_dataWord_zero (t : BitVec 33) (c : Bool) : (dataWord t c).getLsbD 0 = c := by
  exact (BitVec.getLsbD_append (x := t.extractLsb' 0 31) (y := BitVec.ofBool c)).trans (by simp)

/-- Bit `i + 1` of the data word is the i-th bit read (R125). -/
theorem getLsbD_dataWord_succ (t : BitVec 33) (c : Bool) (i : Nat) (hi : i < 31) :
    (dataWord t c).getLsbD (i + 1) = t.getLsbD i := by
  exact (BitVec.getLsbD_append (x := t.extractLsb' 0 31) (y := BitVec.ofBool c)).trans (by simp [hi])

/-- With the 32 bits of the default the divisor is the whole `value` field (R26). -/
theorem divisorOf_of_bits {cfg : Cfg} (h : cfg.clkdivBits = 32) (v : Word) : divisorOf cfg v = v := by
  simp [divisorOf, h]

/-- A divisor has `CLKDIV_BITS` bits (R26). -/
@[simp] theorem divisorOf_divisorOf (cfg : Cfg) (v : Word) : divisorOf cfg (divisorOf cfg v) = divisorOf cfg v := by
  refine BitVec.eq_of_getLsbD_eq fun i hi => ?_
  simp only [divisorOf, BitVec.getLsbD_setWidth]
  cases decide (i < cfg.clkdivBits) <;> simp

/-! ### What a well-formed configuration is (R7) -/

/-- The conditions of `Cfg.wf`, each under a name. -/
structure CfgOk (cfg : Cfg) : Prop where
  inWidths : ∀ w ∈ cfg.inParityChunks, w ∈ cfg.widths
  inSum : cfg.inParityChunks.sum = 33
  outWidths : ∀ n ∈ outCycles, ∀ w ∈ cfg.outChunks n, w ∈ cfg.widths
  outSum : ∀ n ∈ outCycles, (cfg.outChunks n).sum = n
  four : 4 ∈ cfg.widths
  five : 5 ∈ cfg.widths
  eight : 8 ∈ cfg.widths
  widthReset : cfg.widthReset ∈ cfg.widths
  lt : ∀ w ∈ cfg.widths, w < 32

theorem Cfg.ok {cfg : Cfg} (h : cfg.wf = true) : CfgOk cfg := by
  simp only [Cfg.wf, Cfg.chunksOk, Bool.and_eq_true, decide_eq_true_eq, List.all_eq_true] at h
  obtain ⟨⟨⟨⟨⟨⟨⟨⟨⟨⟨h33, h8⟩, h12⟩, h16⟩, h32⟩, four⟩, five⟩, eight⟩, reset⟩, lt⟩, -⟩ := h
  refine ⟨h33.1, h33.2, ?_, ?_, four, five, eight, reset, lt⟩ <;>
    · simp only [outCycles, List.mem_cons, List.not_mem_nil, or_false, Cfg.outChunks]
      rintro n (rfl | rfl | rfl | rfl) <;> simp [h8.2, h12.2, h16.2, h32.2] <;>
        first | exact h8.1 | exact h12.1 | exact h16.1 | exact h32.1

theorem CfgOk.le {cfg : Cfg} (h : CfgOk cfg) {w : Nat} (hw : w ∈ cfg.widths) : w ≤ 32 := (h.lt w hw).le

theorem CfgOk.ack {cfg : Cfg} (h : CfgOk cfg) (cv : Bool) : ackCycles cv ∈ cfg.widths := by
  cases cv
  · exact h.five
  · exact h.four

theorem CfgOk.toNat_of_width {cfg : Cfg} (h : CfgOk cfg) {n : Nat} (hn : n ∈ cfg.widths) :
    (BitVec.ofNat 5 n).toNat = n := by
  simpa using Nat.mod_eq_of_lt (h.lt n hn)

theorem Config.cfg_wf : Config.cfg.wf = true := by decide

end Sys2Proof.Machine
end

