-- ==== Sys2Proof/Laws/Adapter.lean ====
section
/-! SUPPORT. What a shift and a list of shifts can do, said once (spec 40_bit_shifter_adapter.md R91 to R97): the
exact effect when every shift becomes ready (`ShiftsRan`), and what holds however it ends (`AdapterTouched`). -/

namespace Sys2Proof.Machine

/-! ### Width bookkeeping -/

theorem widthEvents_append (w : BitVec 5) (a b : List Nat) :
    widthEvents w (a ++ b) = widthEvents w a ++ widthEvents (lastWidth w a) b := by
  induction a generalizing w with
  | nil => rfl
  | cons n a ih => simp [widthEvents, lastWidth, ih]

theorem lastWidth_append (w : BitVec 5) (a b : List Nat) : lastWidth w (a ++ b) = lastWidth (lastWidth w a) b := by
  induction a generalizing w with
  | nil => rfl
  | cons n a ih => simp [lastWidth, ih]

theorem lastPhysical_append (w p : BitVec 5) (a b : List Nat) :
    lastPhysical w p (a ++ b) = lastPhysical (lastWidth w a) (lastPhysical w p a) b := by
  induction a generalizing w p with
  | nil => rfl
  | cons n a ih => simp [lastWidth, lastPhysical, ih]

/-- A chunk list ends at its last count, whatever the width was (R22). -/
theorem lastWidth_eq_getLast (w : BitVec 5) (ns : List Nat) (h : ns ≠ []) :
    lastWidth w ns = BitVec.ofNat 5 (ns.getLast h) := by
  induction ns generalizing w with
  | nil => exact absurd rfl h
  | cons n ns ih =>
    cases ns with
    | nil => rfl
    | cons m ns => simpa [lastWidth] using ih (BitVec.ofNat 5 n) (by simp)

/-- If the shifter's width agrees with `WIDTH`, it still does after any shifts (R32). -/
theorem lastPhysical_self (w : BitVec 5) (ns : List Nat) : lastPhysical w w ns = lastWidth w ns := by
  induction ns generalizing w with
  | nil => rfl
  | cons n ns ih =>
    by_cases h : w = BitVec.ofNat 5 n
    · simp only [lastPhysical, lastWidth, h, if_true, ih]
    · simp only [lastPhysical, lastWidth, h, if_false, ih]

/-! ### The part of a shift before its cycles -/

/-- The target is not touched by what comes before the cycles. -/
@[simp] theorem beginShift_oracle (op : Instr) (n : Nat) (s : State) : (beginShift op n s).oracle = s.oracle := by
  refine oracle_congr ?_ ?_ <;> · simp only [beginShift, reconfWidth]; split <;> rfl

/-- What a shift does before its cycles (R91): called, reconfigured if the width differs, readiness taken. -/
theorem beginShift_eq (op : Instr) (n : Nat) (s : State) :
    beginShift op n s =
      { s with
        session := { s.session with width := BitVec.ofNat 5 n }
        shifterWidth := if s.session.width = BitVec.ofNat 5 n then s.shifterWidth else BitVec.ofNat 5 n
        calls := s.calls ++ [op]
        config := s.config ++ widthEvents s.session.width [n]
        rxbuf := Config.freeRx s.draws
        draws := s.draws + 1
        shifts := s.shifts.drop 1
        polled := s.polled + 1 } := by
  by_cases h : s.session.width = BitVec.ofNat 5 n
  · obtain ⟨_, ⟨d, w, c, cv, cd, b, f, ca, fc, r, p⟩, _, _, _, _, _, _, _, _, _, _, _, _, _, _, _, _, _, _, _⟩ := s
    simp only at h
    subst h
    simp [beginShift, reconfWidth, widthEvents, takeShift, clobberRx, issue]
  · simp [beginShift, reconfWidth, h, widthEvents, takeShift, clobberRx, issue, emit]

/-! ### The exact effect of shifts that become ready -/

/-- Bits taken from the target by cycles of a mode: all of them in SENSE mode, none in DRIVE mode (R54). -/
def sampledBy (mode : Dir) (bits : List Bool) : Nat :=
  match mode with
  | .sense => bits.length
  | .drive => 0

/-- From `s` to `t` the shifts of counts `ns` have run whole: `ops` were called, `bits` are on the wire. -/
structure ShiftsRan (mode : Dir) (bits : List Bool) (ns : List Nat) (ops : List Instr) (s t : State) : Prop where
  session : t.session = { s.session with width := lastWidth s.session.width ns }
  shifter : t.shifterWidth = lastPhysical s.session.width s.shifterWidth ns
  wire : t.wire = s.wire ++ cyclesOf mode bits
  calls : t.calls = s.calls ++ ops
  config : t.config = s.config ++ widthEvents s.session.width ns
  upc : t.upc = s.upc + ns.length
  target : t.target = s.target.drop (sampledBy mode bits)
  sampled : t.sampled = s.sampled + sampledBy mode bits
  shifts : t.shifts = s.shifts.drop ns.length
  polled : t.polled = s.polled + ns.length
  cfg : t.cfg = s.cfg
  pin : t.pin = s.pin
  cmd : t.cmd = s.cmd
  slots : t.slots = s.slots
  inputs : t.inputs = s.inputs

theorem ShiftsRan.refl (mode : Dir) (s : State) : ShiftsRan mode [] [] [] s s := by
  constructor <;> simp [lastWidth, lastPhysical, widthEvents, sampledBy, cyclesOf] <;> cases mode <;> simp

theorem sampledBy_append (mode : Dir) (a b : List Bool) :
    sampledBy mode (a ++ b) = sampledBy mode a + sampledBy mode b := by
  cases mode <;> simp [sampledBy]

theorem ShiftsRan.trans {mode : Dir} {b₁ b₂ : List Bool} {n₁ n₂ : List Nat} {o₁ o₂ : List Instr} {s t u : State}
    (h₁ : ShiftsRan mode b₁ n₁ o₁ s t) (h₂ : ShiftsRan mode b₂ n₂ o₂ t u) :
    ShiftsRan mode (b₁ ++ b₂) (n₁ ++ n₂) (o₁ ++ o₂) s u where
  session := by simp [h₂.session, h₁.session, lastWidth_append]
  shifter := by simp [h₂.shifter, h₁.shifter, h₁.session, lastPhysical_append]
  wire := by simp [h₂.wire, h₁.wire, cyclesOf_append]
  calls := by simp [h₂.calls, h₁.calls]
  config := by simp [h₂.config, h₁.config, h₁.session, widthEvents_append]
  upc := by simp [h₂.upc, h₁.upc, Nat.add_assoc]
  target := by simp [h₂.target, h₁.target, sampledBy_append]
  sampled := by simp [h₂.sampled, h₁.sampled, sampledBy_append, Nat.add_assoc]
  shifts := by simp [h₂.shifts, h₁.shifts]
  polled := by simp [h₂.polled, h₁.polled, Nat.add_assoc]
  cfg := h₂.cfg.trans h₁.cfg
  pin := h₂.pin.trans h₁.pin
  cmd := h₂.cmd.trans h₁.cmd
  slots := h₂.slots.trans h₁.slots
  inputs := h₂.inputs.trans h₁.inputs

/-- The readiness inputs depend only on what is left of the list and on how many shifts have begun. -/
theorem readiness_drop {s t : State} {n : Nat} (hs : t.shifts = s.shifts.drop n) (hp : t.polled = s.polled + n)
    (i : Nat) : t.readiness i = s.readiness (n + i) := by
  simp [State.readiness, hs, hp, List.getElem?_drop, Nat.add_assoc]

theorem State.readyFor.after {s t : State} {k m : Nat} (h : s.readyFor (k + m)) (hs : t.shifts = s.shifts.drop k)
    (hp : t.polled = s.polled + k) : t.readyFor m := fun i hi =>
  (readiness_drop hs hp i).trans (h _ (by omega))

theorem State.readyFor.next {s : State} {m : Nat} (h : s.readyFor (m + 1)) : s.readiness 0 = .ready :=
  h 0 (by omega)

/-- `shift_in` with a legal count that becomes ready (R92). -/
theorem shiftIn_ready {n : Nat} {s : State} (hn : n ∈ s.cfg.widths) (hr : s.readiness 0 = .ready) :
    ∃ t, shiftIn n s = .done (bitsToWord (s.coming n)) t
      ∧ ShiftsRan .sense (s.coming n) [n] [.shiftIn n] s t := by
  have hc : (beginShift (.shiftIn n) n s).coming n = s.coming n := coming_congr (beginShift_oracle _ _ _) n
  refine ⟨_, by simp only [shiftIn, hn, if_true, hr, sampleBits_eq, hc]; rfl, ?_⟩
  constructor <;> simp [beginShift_eq, lastWidth, lastPhysical, sampledBy]

/-- `shift_out` with a legal count that becomes ready (R93). -/
theorem shiftOut_ready {b : Word} {n : Nat} {s : State} (hn : n ∈ s.cfg.widths)
    (hr : s.readiness 0 = .ready) :
    ∃ t, shiftOut b n s = .done () t ∧ ShiftsRan .drive (lowBits b n) [n] [.shiftOut b n] s t := by
  refine ⟨_, by simp only [shiftOut, hn, if_true, hr, presentBits_zero]; rfl, ?_⟩
  constructor <;> simp [beginShift_eq, lastWidth, lastPhysical, sampledBy]

/-- The read loop over legal counts, every shift ready: it returns the target's next bits as one stream, whatever
the chunking (R77, R126). -/
theorem readChunks_ready {ws : List Nat} {s : State} {old : List Bool}
    (hw : ∀ w ∈ ws, w ∈ s.cfg.widths ∧ w ≤ 32) (hr : s.readyFor ws.length) :
    ∃ t, readChunks ws old.length (bitsToWide old) s = .done (bitsToWide (old ++ s.coming ws.sum)) t
      ∧ ShiftsRan .sense (s.coming ws.sum) ws (ws.map Instr.shiftIn) s t := by
  induction ws generalizing s old with
  | nil => exact ⟨s, by simp [readChunks, State.coming], by simpa [State.coming] using ShiftsRan.refl .sense s⟩
  | cons w ws ih =>
    obtain ⟨u, hu, ran⟩ := shiftIn_ready (s := s) (hw w (by simp)).1 hr.next
    have hlen : old.length + w = (old ++ s.coming w).length := by simp
    have hadd : s.coming (w :: ws).sum = s.coming w ++ u.coming ws.sum := by
      rw [List.sum_cons, coming_add (t := u) (by simpa [sampledBy] using ran.target)
        (by simpa [sampledBy] using ran.sampled)]
    have hru : u.readyFor ws.length :=
      State.readyFor.after (k := 1) (by rwa [Nat.add_comm] : s.readyFor (1 + ws.length)) (by simpa using ran.shifts)
        (by simpa using ran.polled)
    obtain ⟨t, ht, ran'⟩ := ih (s := u) (old := old ++ s.coming w) (fun v hv => ran.cfg ▸ hw v (by simp [hv])) hru
    refine ⟨t, ?_, by rw [hadd]; exact ran.trans ran'⟩
    have hle : (s.coming w).length ≤ 32 := by simpa using (hw w (by simp)).2
    simp only [readChunks, hu]
    rw [insertChunk_bitsToWide old (s.coming w) hle, hlen, ht, hadd, List.append_assoc]

/-- The shifts of an out-class primitive, every count legal and every shift ready (R130, R134). -/
theorem writeShifts_ready {xs : List (Word × Nat)} {s : State} (hw : ∀ x ∈ xs, x.2 ∈ s.cfg.widths)
    (hr : s.readyFor xs.length) :
    ∃ t, writeShifts xs s = .done () t
      ∧ ShiftsRan .drive (xs.flatMap fun x => lowBits x.1 x.2) (xs.map Prod.snd)
          (xs.map fun x => Instr.shiftOut x.1 x.2) s t := by
  induction xs generalizing s with
  | nil => exact ⟨s, rfl, ShiftsRan.refl .drive s⟩
  | cons x xs ih =>
    obtain ⟨u, hu, ran⟩ := shiftOut_ready (b := x.1) (s := s) (hw x (by simp)) hr.next
    have hru : u.readyFor xs.length :=
      State.readyFor.after (k := 1) (by rwa [Nat.add_comm] : s.readyFor (1 + xs.length)) (by simpa using ran.shifts)
        (by simpa using ran.polled)
    obtain ⟨t, ht, ran'⟩ := ih (s := u) (fun y hy => ran.cfg ▸ hw y (by simp [hy])) hru
    exact ⟨t, by simp only [writeShifts, hu, ht], ran.trans ran'⟩

/-! ### The two ways a shift over a legal count can end -/

/-- From `s` the shifts of counts `ns` were begun and one hangs: what is on the traces begins what `ShiftsRan` of the
same `bits`, `ns` and `ops` would put there (R97, R180). -/
structure ShiftsBegun (mode : Dir) (bits : List Bool) (ns : List Nat) (ops : List Instr) (s t : State) : Prop where
  wire : ∃ b, b <+: bits ∧ t.wire = s.wire ++ cyclesOf mode b
  calls : ∃ o, o <+: ops ∧ t.calls = s.calls ++ o
  config : ∃ e, e <+: widthEvents s.session.width ns ∧ t.config = s.config ++ e
  upc : t.upc < s.upc + ns.length

theorem ShiftsRan.then_begun {mode : Dir} {b₁ b₂ : List Bool} {n₁ n₂ : List Nat} {o₁ o₂ : List Instr}
    {s t u : State} (h₁ : ShiftsRan mode b₁ n₁ o₁ s t) (h₂ : ShiftsBegun mode b₂ n₂ o₂ t u) :
    ShiftsBegun mode (b₁ ++ b₂) (n₁ ++ n₂) (o₁ ++ o₂) s u where
  wire := by
    obtain ⟨b, hb, h⟩ := h₂.wire
    exact ⟨b₁ ++ b, List.prefix_append_right_inj _ |>.mpr hb, by simp [h, h₁.wire, cyclesOf_append]⟩
  calls := by
    obtain ⟨o, ho, h⟩ := h₂.calls
    exact ⟨o₁ ++ o, List.prefix_append_right_inj _ |>.mpr ho, by simp [h, h₁.calls]⟩
  config := by
    obtain ⟨e, he, h⟩ := h₂.config
    have he : e <+: widthEvents (lastWidth s.session.width n₁) n₂ := by simpa [h₁.session] using he
    refine ⟨widthEvents s.session.width n₁ ++ e, ?_, by simp [h, h₁.config]⟩
    rw [widthEvents_append]
    exact List.prefix_append_right_inj _ |>.mpr he
  upc := by
    have h := h₂.upc
    rw [h₁.upc] at h
    simp only [List.length_append]
    omega

theorem ShiftsBegun.append {mode : Dir} {b₁ b₂ : List Bool} {n₁ n₂ : List Nat} {o₁ o₂ : List Instr} {s t : State}
    (h : ShiftsBegun mode b₁ n₁ o₁ s t) : ShiftsBegun mode (b₁ ++ b₂) (n₁ ++ n₂) (o₁ ++ o₂) s t where
  wire := by
    obtain ⟨b, hb, h⟩ := h.wire
    exact ⟨b, hb.trans (List.prefix_append ..), h⟩
  calls := by
    obtain ⟨o, ho, h⟩ := h.calls
    exact ⟨o, ho.trans (List.prefix_append ..), h⟩
  config := by
    obtain ⟨e, he, h⟩ := h.config
    exact ⟨e, he.trans (by rw [widthEvents_append]; exact List.prefix_append ..), h⟩
  upc := by
    have := h.upc
    simp only [List.length_append]
    omega

theorem coming_prefix (s : State) (k n : Nat) : s.coming (min k n) <+: s.coming n := by
  obtain ⟨d, hd⟩ := Nat.exists_eq_add_of_le (Nat.min_le_right k n)
  conv_rhs => rw [hd]
  simp only [State.coming, List.range_add, List.map_append]
  exact List.prefix_append ..

theorem lowBits_prefix (v : Word) (k n : Nat) : lowBits v (min k n) <+: lowBits v n := by
  obtain ⟨d, hd⟩ := Nat.exists_eq_add_of_le (Nat.min_le_right k n)
  conv_rhs => rw [hd]
  simp only [lowBits, List.range_add, List.map_append]
  exact List.prefix_append ..

/-- A shift that ends was ready, so its effect is the exact one. -/
theorem shiftIn_done {n : Nat} {s t : State} {r : Word} (h : shiftIn n s = .done r t) :
    r = bitsToWord (s.coming n) ∧ ShiftsRan .sense (s.coming n) [n] [.shiftIn n] s t := by
  by_cases hn : n ∈ s.cfg.widths
  · cases hr : s.readiness 0 with
    | ready =>
      obtain ⟨u, hu, ran⟩ := shiftIn_ready hn hr
      rw [hu] at h
      cases h
      exact ⟨rfl, ran⟩
    | never k => simp [shiftIn, hn, hr] at h
  · simp [shiftIn, hn] at h

theorem shiftOut_done {b : Word} {n : Nat} {s t : State} (h : shiftOut b n s = .done () t) :
    ShiftsRan .drive (lowBits b n) [n] [.shiftOut b n] s t := by
  by_cases hn : n ∈ s.cfg.widths
  · cases hr : s.readiness 0 with
    | ready =>
      obtain ⟨u, hu, ran⟩ := shiftOut_ready (b := b) hn hr
      rw [hu] at h
      cases h
      exact ran
    | never k => simp [shiftOut, hn, hr] at h
  · simp [shiftOut, hn] at h

/-- A shift that hangs has begun (R97). -/
theorem shiftIn_hung {n : Nat} {s t : State} (h : shiftIn n s = .hung t) :
    ShiftsBegun .sense (s.coming n) [n] [.shiftIn n] s t := by
  by_cases hn : n ∈ s.cfg.widths
  · cases hr : s.readiness 0 with
    | ready => simp [shiftIn, hn, hr] at h
    | never k =>
      simp only [shiftIn, hn, if_true, hr, sampleBits_eq] at h
      cases h
      rw [coming_congr (beginShift_oracle _ _ _)]
      constructor
      case wire => exact ⟨_, coming_prefix s k n, by simp [beginShift_eq]⟩
      case calls => exact ⟨_, List.prefix_rfl, by simp [beginShift_eq]⟩
      case config => exact ⟨_, List.prefix_rfl, by simp [beginShift_eq]⟩
      case upc => simp [beginShift_eq]
  · simp [shiftIn, hn] at h

theorem shiftOut_hung {b : Word} {n : Nat} {s t : State} (h : shiftOut b n s = .hung t) :
    ShiftsBegun .drive (lowBits b n) [n] [.shiftOut b n] s t := by
  by_cases hn : n ∈ s.cfg.widths
  · cases hr : s.readiness 0 with
    | ready => simp [shiftOut, hn, hr] at h
    | never k =>
      simp only [shiftOut, hn, if_true, hr, presentBits_zero] at h
      cases h
      constructor
      case wire => exact ⟨_, lowBits_prefix b k n, by simp [beginShift_eq]⟩
      case calls => exact ⟨_, List.prefix_rfl, by simp [beginShift_eq]⟩
      case config => exact ⟨_, List.prefix_rfl, by simp [beginShift_eq]⟩
      case upc => simp [beginShift_eq]
  · simp [shiftOut, hn] at h

/-- The read loop ends only if all its shifts ran, or hangs with some of them begun. -/
theorem readChunks_ended {ws : List Nat} {o : Nat} {x : BitVec 33} {s : State} :
    (∀ r t, readChunks ws o x s = .done r t → ShiftsRan .sense (s.coming ws.sum) ws (ws.map Instr.shiftIn) s t)
      ∧ ∀ t, readChunks ws o x s = .hung t →
        ShiftsBegun .sense (s.coming ws.sum) ws (ws.map Instr.shiftIn) s t := by
  induction ws generalizing s o x with
  | nil =>
    refine ⟨fun r t h => ?_, fun t h => by simp [readChunks] at h⟩
    cases h
    simpa [State.coming] using ShiftsRan.refl .sense s
  | cons w ws ih =>
    cases hs : shiftIn w s with
    | done r u =>
      obtain ⟨-, ran⟩ := shiftIn_done hs
      have hadd : s.coming (w :: ws).sum = s.coming w ++ u.coming ws.sum := by
        rw [List.sum_cons, coming_add (t := u) (by simpa [sampledBy] using ran.target)
          (by simpa [sampledBy] using ran.sampled)]
      rw [hadd]
      simp only [readChunks, hs]
      exact ⟨fun r t h => ran.trans (ih.1 r t h), fun t h => ran.then_begun (ih.2 t h)⟩
    | hung u =>
      have hadd : s.coming (w :: ws).sum
          = s.coming w ++ ({ s with target := s.target.drop w, sampled := s.sampled + w } : State).coming ws.sum := by
        rw [List.sum_cons]
        exact coming_add rfl rfl _
      rw [hadd]
      simp only [readChunks, hs]
      refine ⟨by simp, fun t h => ?_⟩
      obtain rfl := Progress.hung.inj h
      exact (shiftIn_hung hs).append
    | fatal c u =>
      simp only [readChunks, hs]
      exact ⟨by simp, by simp⟩

/-- The shifts of an out-class primitive end only if all of them ran, or hang with some of them begun. -/
theorem writeShifts_ended {xs : List (Word × Nat)} {s : State} :
    (∀ t, writeShifts xs s = .done () t →
        ShiftsRan .drive (xs.flatMap fun x => lowBits x.1 x.2) (xs.map Prod.snd)
          (xs.map fun x => Instr.shiftOut x.1 x.2) s t)
      ∧ ∀ t, writeShifts xs s = .hung t →
        ShiftsBegun .drive (xs.flatMap fun x => lowBits x.1 x.2) (xs.map Prod.snd)
          (xs.map fun x => Instr.shiftOut x.1 x.2) s t := by
  induction xs generalizing s with
  | nil =>
    refine ⟨fun t h => ?_, fun t h => by simp [writeShifts] at h⟩
    cases h
    exact ShiftsRan.refl .drive s
  | cons x xs ih =>
    cases hs : shiftOut x.1 x.2 s with
    | done r u =>
      have ran := shiftOut_done hs
      simp only [writeShifts, hs]
      exact ⟨fun t h => ran.trans (ih.1 t h), fun t h => ran.then_begun (ih.2 t h)⟩
    | hung u =>
      simp only [writeShifts, hs]
      refine ⟨by simp, fun t h => ?_⟩
      obtain rfl := Progress.hung.inj h
      exact (shiftOut_hung hs).append (b₂ := xs.flatMap fun x => lowBits x.1 x.2) (n₂ := xs.map Prod.snd)
        (o₂ := xs.map fun x => Instr.shiftOut x.1 x.2)
    | fatal c u =>
      simp only [writeShifts, hs]
      exact ⟨by simp, by simp⟩

/-! ### However it ends -/

/-- What a run of shifts of one mode may have changed, whether it ended, hangs or raised a fatal. -/
structure AdapterTouched (mode : Dir) (s t : State) : Prop where
  cfg : t.cfg = s.cfg
  session : t.session = { s.session with width := t.session.width }
  width : (t.session.width = s.session.width ∧ t.shifterWidth = s.shifterWidth)
    ∨ ∃ n ∈ s.cfg.widths, t.session.width = BitVec.ofNat 5 n ∧ t.shifterWidth = BitVec.ofNat 5 n
  wire : ∃ bits, t.wire = s.wire ++ cyclesOf mode bits
  calls : ∃ ops, t.calls = s.calls ++ ops ∧ ∀ i ∈ ops, i.isCommand = false
  config : ∃ events, t.config = s.config ++ events
  pin : t.pin = s.pin
  cmd : t.cmd = s.cmd
  slots : t.slots = s.slots
  inputs : t.inputs = s.inputs
  busy : t.busy = s.busy

theorem AdapterTouched.refl (mode : Dir) (s : State) : AdapterTouched mode s s where
  cfg := rfl
  session := rfl
  width := .inl ⟨rfl, rfl⟩
  wire := ⟨[], by simp⟩
  calls := ⟨[], by simp⟩
  config := ⟨[], by simp⟩
  pin := rfl
  cmd := rfl
  slots := rfl
  inputs := rfl
  busy := rfl

theorem AdapterTouched.trans {mode : Dir} {s t u : State} (h₁ : AdapterTouched mode s t)
    (h₂ : AdapterTouched mode t u) : AdapterTouched mode s u where
  cfg := h₂.cfg.trans h₁.cfg
  session := by rw [h₂.session, h₁.session]
  width := by
    obtain ⟨hw, hp⟩ | h := h₂.width
    · rw [hw, hp]; exact h₁.width
    · exact .inr (h₁.cfg ▸ h)
  wire := by
    obtain ⟨b₁, h₁⟩ := h₁.wire
    obtain ⟨b₂, h₂⟩ := h₂.wire
    exact ⟨b₁ ++ b₂, by simp [h₂, h₁, cyclesOf_append]⟩
  calls := by
    obtain ⟨o₁, h₁, p₁⟩ := h₁.calls
    obtain ⟨o₂, h₂, p₂⟩ := h₂.calls
    exact ⟨o₁ ++ o₂, by simp [h₂, h₁], fun i hi => (List.mem_append.mp hi).elim (p₁ i) (p₂ i)⟩
  config := by
    obtain ⟨e₁, h₁⟩ := h₁.config
    obtain ⟨e₂, h₂⟩ := h₂.config
    exact ⟨e₁ ++ e₂, by simp [h₂, h₁]⟩
  pin := h₂.pin.trans h₁.pin
  cmd := h₂.cmd.trans h₁.cmd
  slots := h₂.slots.trans h₁.slots
  inputs := h₂.inputs.trans h₁.inputs
  busy := h₂.busy.trans h₁.busy

theorem beginShift_touched (mode : Dir) {op : Instr} {n : Nat} (s : State) (hn : n ∈ s.cfg.widths)
    (ho : op.isCommand = false) : AdapterTouched mode s (beginShift op n s) := by
  rw [beginShift_eq]
  constructor
  case width =>
    by_cases h : s.session.width = BitVec.ofNat 5 n
    · exact .inl ⟨h.symm, by simp [h]⟩
    · exact .inr ⟨n, hn, rfl, by simp [h]⟩
  case wire => exact ⟨[], by simp⟩
  case calls => exact ⟨[op], rfl, by simpa using ho⟩
  case config => exact ⟨_, rfl⟩
  all_goals rfl

/-- A shift that is called only (R55). -/
theorem issue_touched (mode : Dir) {op : Instr} (s : State) (ho : op.isCommand = false) :
    AdapterTouched mode s (issue op s) := by
  constructor
  case width => exact .inl ⟨rfl, rfl⟩
  case wire => exact ⟨[], by simp⟩
  case calls => exact ⟨[op], rfl, by simpa using ho⟩
  case config => exact ⟨[], by simp⟩
  all_goals rfl

/-- The state a run of shifts leaves, however it ends. -/
def Progress.state {α : Type} : Progress α → State
  | .done _ s => s
  | .hung s => s
  | .fatal _ s => s

/-- The only fatal a shift raises is `WIDTH`, and only for a count outside `WIDTHS` (R96). -/
theorem shiftIn_touched (n : Nat) (s : State) :
    AdapterTouched .sense s (shiftIn n s).state
      ∧ ∀ c t, shiftIn n s = .fatal c t → c = .width ∧ t = issue (.shiftIn n) s ∧ n ∉ s.cfg.widths := by
  by_cases hn : n ∈ s.cfg.widths
  · refine ⟨?_, ?_⟩
    · have hb := beginShift_touched (op := .shiftIn n) .sense s hn rfl
      cases hr : s.readiness 0 <;> simp only [shiftIn, hn, if_true, hr, sampleBits_eq, Progress.state] <;>
        refine hb.trans ?_ <;> constructor <;> first | rfl | exact .inl ⟨rfl, rfl⟩ | exact ⟨_, rfl⟩ | exact ⟨[], by simp⟩
    · intro c t h
      cases hr : s.readiness 0 <;> simp [shiftIn, hn, hr] at h
  · simpa [shiftIn, hn, Progress.state, eq_comm] using issue_touched .sense (op := .shiftIn n) s rfl

/-- As for `shift_in`, in DRIVE mode (R93, R96). -/
theorem shiftOut_touched (b : Word) (n : Nat) (s : State) :
    AdapterTouched .drive s (shiftOut b n s).state
      ∧ ∀ c t, shiftOut b n s = .fatal c t → c = .width ∧ t = issue (.shiftOut b n) s ∧ n ∉ s.cfg.widths := by
  by_cases hn : n ∈ s.cfg.widths
  · refine ⟨?_, ?_⟩
    · have hb := beginShift_touched (op := .shiftOut b n) .drive s hn rfl
      cases hr : s.readiness 0 <;> simp only [shiftOut, hn, if_true, hr, presentBits_zero, Progress.state] <;>
        refine hb.trans ?_ <;> constructor <;> first | rfl | exact .inl ⟨rfl, rfl⟩ | exact ⟨_, rfl⟩ | exact ⟨[], by simp⟩
    · intro c t h
      cases hr : s.readiness 0 <;> simp [shiftOut, hn, hr] at h
  · simpa [shiftOut, hn, Progress.state, eq_comm] using issue_touched .drive (op := .shiftOut b n) s rfl

/-- The read loop, however it ends; over legal counts it raises no fatal (R96). -/
theorem readChunks_touched (ws : List Nat) (o : Nat) (t : BitVec 33) (s : State) :
    AdapterTouched .sense s (readChunks ws o t s).state
      ∧ ((∀ w ∈ ws, w ∈ s.cfg.widths) → ∀ c u, readChunks ws o t s ≠ .fatal c u) := by
  induction ws generalizing o t s with
  | nil => exact ⟨AdapterTouched.refl .., by simp [readChunks]⟩
  | cons w ws ih =>
    obtain ⟨hs, hf⟩ := shiftIn_touched w s
    cases h : shiftIn w s with
    | done r u =>
      rw [h] at hs
      simp only [readChunks, h]
      exact ⟨hs.trans (ih _ _ u).1, fun hw => (ih _ _ u).2 fun v hv => hs.cfg ▸ hw v (by simp [hv])⟩
    | hung u =>
      rw [h] at hs
      simp only [readChunks, h]
      exact ⟨hs, by simp⟩
    | fatal c u =>
      rw [h] at hs
      simp only [readChunks, h]
      exact ⟨hs, fun hw => absurd (hw w (by simp)) (hf c u h).2.2⟩

/-- The shifts of an out-class primitive, however they end (R96). -/
theorem writeShifts_touched (xs : List (Word × Nat)) (s : State) :
    AdapterTouched .drive s (writeShifts xs s).state
      ∧ ((∀ x ∈ xs, x.2 ∈ s.cfg.widths) → ∀ c u, writeShifts xs s ≠ .fatal c u) := by
  induction xs generalizing s with
  | nil => exact ⟨AdapterTouched.refl .., by simp [writeShifts]⟩
  | cons x xs ih =>
    obtain ⟨hs, hf⟩ := shiftOut_touched x.1 x.2 s
    cases h : shiftOut x.1 x.2 s with
    | done r u =>
      rw [h] at hs
      simp only [writeShifts, h]
      exact ⟨hs.trans (ih u).1, fun hw => (ih u).2 fun v hv => hs.cfg ▸ hw v (by simp [hv])⟩
    | hung u =>
      rw [h] at hs
      simp only [writeShifts, h]
      exact ⟨hs, by simp⟩
    | fatal c u =>
      rw [h] at hs
      simp only [writeShifts, h]
      exact ⟨hs, fun hw => absurd (hw x (by simp)) (hf c u h).2.2⟩

end Sys2Proof.Machine
end

