-- ==== Sys2Proof/Laws/Decode.lean ====
section
/-! SUPPORT. The fields of a packed word (spec 30_encoding.md R71), and the word's table row by its opcode. -/

namespace Sys2Proof

@[simp] theorem opField_packWord (op : BitVec 8) (cycles : Nat) (value : Word) :
    opField (packWord op cycles value) = op := by
  refine BitVec.eq_of_getLsbD_eq fun i hi => ?_
  have h1 : ¬ 40 + i < 32 := by omega
  have h2 : ¬ 40 + i - 32 < 8 := by omega
  have h3 : 40 + i - 32 - 8 = i := by omega
  rw [opField, BitVec.getLsbD_extractLsb', packWord, show (op ++ BitVec.ofNat 8 cycles ++ value : CommandWord).getLsbD
    (40 + i) = _ from BitVec.getLsbD_append, BitVec.getLsbD_append]
  simp only [hi, h1, h2, h3, decide_true, Bool.true_and, if_false]

@[simp] theorem valueField_packWord (op : BitVec 8) (cycles : Nat) (value : Word) :
    valueField (packWord op cycles value) = value := by
  refine BitVec.eq_of_getLsbD_eq fun i hi => ?_
  rw [valueField, BitVec.getLsbD_extractLsb', packWord, show (op ++ BitVec.ofNat 8 cycles ++ value :
    CommandWord).getLsbD (0 + i) = _ from BitVec.getLsbD_append]
  simp only [hi, Nat.zero_add, decide_true, Bool.true_and, if_true]

@[simp] theorem cyclesField_packWord (op : BitVec 8) (cycles : Nat) (value : Word) :
    cyclesField (packWord op cycles value) = cycles % 256 := by
  have : (packWord op cycles value).extractLsb' 32 8 = BitVec.ofNat 8 cycles := by
    refine BitVec.eq_of_getLsbD_eq fun i hi => ?_
    have h1 : ¬ 32 + i < 32 := by omega
    have h2 : 32 + i - 32 = i := by omega
    rw [BitVec.getLsbD_extractLsb', packWord, show (op ++ BitVec.ofNat 8 cycles ++ value : CommandWord).getLsbD
      (32 + i) = _ from BitVec.getLsbD_append, BitVec.getLsbD_append]
    simp only [hi, h1, h2, decide_true, Bool.true_and, if_true, if_false]
  rw [cyclesField, this, BitVec.toNat_ofNat]

/-- The decoder reads the row of the word's opcode: `decode` gives an instruction of that opcode or none. -/
theorem opcode_of_decode {w : CommandWord} {i : Instr} (h : decode w = .ok i) : opcode i = opField w := by
  unfold decode at h
  refine BitVec.eq_of_toNat_eq ?_
  split at h <;> first | (cases h; simp_all [opcode]) | simp at h

end Sys2Proof
end

