-- ==== Sys2Proof/Laws/Exec.lean ====
section
/-! SUPPORT. What the micro-ops without a shift do, and what `exec` and `step` can do at all (one inversion lemma
each), so that a claim over all instructions is a short case analysis. -/

namespace Sys2Proof.Machine

/-! ### `drive()`, `sense()`, `drain()`, `set_div(v)` -/

/-- `drive()` in both modes (R111). -/
theorem drive_eq (s : State) :
    drive s =
      { s with
        session := { s.session with dir := .drive }
        pin := if s.session.dir = .drive then s.pin else .pushPull
        calls := s.calls ++ [.drive]
        config := s.config ++ pinEvents s.session.dir .drive
        upc := s.upc + 1 } := by
  obtain ⟨_, ⟨d, w, c, cv, cd, b, f, ca, fc, r, p⟩, _, _, _, _, _, _, _, _, _, _, _, _, _, _, _, _, _, _, _⟩ := s
  cases d <;> simp [drive, pinToDrive, issue, retire, emit, pinEvents]

/-- `sense()` in both modes (R112). -/
theorem sense_eq (s : State) :
    sense s =
      { s with
        session := { s.session with dir := .sense }
        pin := if s.session.dir = .sense then s.pin else .input s.cfg.pinSenseMode
        calls := s.calls ++ [.sense]
        config := s.config ++ pinEvents s.session.dir .sense
        upc := s.upc + 1 } := by
  obtain ⟨_, ⟨d, w, c, cv, cd, b, f, ca, fc, r, p⟩, _, _, _, _, _, _, _, _, _, _, _, _, _, _, _, _, _, _, _⟩ := s
  cases d <;> simp [sense, pinToSense, issue, retire, emit, pinEvents]

/-- `drain()` (R94). -/
theorem drain_eq (s : State) :
    drain s = { s with rxbuf := [], calls := s.calls ++ [.drain], config := s.config ++ [.drained], upc := s.upc + 1 } :=
  rfl

/-- `set_div(v)` (R95). -/
theorem setDiv_eq (v : Word) (s : State) :
    setDiv v s =
      { s with
        session := { s.session with clkdiv := divisorOf s.cfg v }
        calls := s.calls ++ [.setDiv (divisorOf s.cfg v)]
        config := s.config ++ [.reconfDiv (divisorOf s.cfg v)]
        upc := s.upc + 1 } :=
  rfl

/-! ### The dispatcher and the end of a command -/

theorem unlessFaulted_eq_next {s t : State} {body : State → Host.Outcome State Fault Refusal}
    (h : unlessFaulted s body = .next t) :
    (s.session.faulted = true ∧ t = refuseFaulted s) ∨ (s.session.faulted = false ∧ body s = .next t) := by
  unfold unlessFaulted at h
  cases hf : s.session.faulted <;> simp [hf] at h
  · exact .inr ⟨rfl, h⟩
  · exact .inl ⟨rfl, h.symm⟩

theorem whenBound_eq_next {s t : State} {body : State → Host.Outcome State Fault Refusal}
    (h : whenBound s body = .next t) :
    (s.session.faulted = true ∧ t = refuseFaulted s)
      ∨ (s.session.faulted = false ∧ s.session.bound = false ∧ t = raiseFatal .notBound s)
      ∨ ((s.session.faulted = false ∧ s.session.bound = true) ∧ body s = .next t) := by
  obtain h | ⟨hf, h⟩ := unlessFaulted_eq_next h
  · exact .inl h
  · cases hb : s.session.bound <;> simp [hb] at h
    · exact .inr (.inl ⟨hf, rfl, h.symm⟩)
    · exact .inr (.inr ⟨⟨hf, rfl⟩, h⟩)

@[simp] theorem unlessFaulted_of_not {s : State} (h : s.session.faulted = false)
    (body : State → Host.Outcome State Fault Refusal) : unlessFaulted s body = body s := by
  simp [unlessFaulted, h]

theorem whenBound_of_canRun {s : State} (h : s.canRun) (body : State → Host.Outcome State Fault Refusal) :
    whenBound s body = body s := by
  simp [whenBound, h.2.1, h.2.2]

theorem settle_cases {α : Type} {p : Progress α} {commit : α → State → State} {t : State}
    (h : Host.Outcome.next (φ := Fault) (ρ := Refusal) (settle p commit) = .next t) :
    (∃ a u, p = .done a u ∧ t = commit a u) ∨ (∃ u, p = .hung u ∧ t = hang u)
      ∨ (∃ c u, p = .fatal c u ∧ t = raiseFatal c u) := by
  obtain rfl := Host.Outcome.next.inj h
  cases p with
  | done a u => exact .inl ⟨a, u, rfl, rfl⟩
  | hung u => exact .inr (.inl ⟨u, rfl, rfl⟩)
  | fatal c u => exact .inr (.inr ⟨c, u, rfl, rfl⟩)

/-! ### One inversion lemma for `exec` -/

/-- The mode of a call's whole phase (R114); for a call without cycles any will do. -/
def phaseMode : Instr → Dir
  | .sequenceOut _ _ => .drive
  | .sequenceOutParity _ _ => .drive
  | .shiftOut _ _ => .drive
  | .drive => .drive
  | .sequenceIn _ => .sense
  | .sequenceInParity _ => .sense
  | .init => .sense
  | .setDivisor _ => .sense
  | .shiftIn _ => .sense
  | .drain => .sense
  | .setDiv _ => .sense
  | .sense => .sense

/-- Whether a call shifts at all. -/
def shifting : Instr → Bool
  | .sequenceIn _ => true
  | .sequenceInParity _ => true
  | .sequenceOut _ _ => true
  | .sequenceOutParity _ _ => true
  | .shiftIn _ => true
  | .shiftOut _ _ => true
  | .init => false
  | .setDivisor _ => false
  | .drain => false
  | .setDiv _ => false
  | .drive => false
  | .sense => false

/-- The state when the shifts of a call begin; for a call without shifts, when all its work is done. -/
def prepared : Instr → State → State
  | .sequenceIn _, s => sense s
  | .sequenceInParity _, s => sense s
  | .sequenceOut _ _, s => drive (drain s)
  | .sequenceOutParity _ _, s => drive (drain s)
  | .init, s =>
    bindTable (setDiv s.cfg.clkdivReset (widthToReset (pinToSense (clobberRx s))))
  | .setDivisor v, s => setDiv v s
  | .shiftIn _, s => s
  | .shiftOut _ _, s => s
  | .drain, s => drain s
  | .setDiv v, s => setDiv v s
  | .drive, s => drive s
  | .sense, s => sense s

/-- `t` is what a call commits when its shifts have left `u`; `cv` is the carry flag it started with. -/
def Commits (cv : Bool) : Instr → State → State → Prop
  | .sequenceIn _, u, t => ∃ r, t = commitAck cv r u
  | .sequenceInParity _, u, t => ∃ x, t = commitData x u
  | .sequenceOut _ _, u, t => t = commitOut u
  | .sequenceOutParity _ _, u, t => t = commitOut u
  | .init, u, t => t = finish .unit u
  | .setDivisor _, u, t => t = finish .unit u
  | .shiftIn _, u, t => ∃ r, t = finish (.bits r) u
  | .shiftOut _ _, u, t => t = finish .unit u
  | .drain, u, t => t = finish .unit u
  | .setDiv _, u, t => t = finish .unit u
  | .drive, u, t => t = finish .unit u
  | .sense, u, t => t = finish .unit u

/-- What a call that runs starts from: the checks of R176, and for the adapter exposed directly those of R99. -/
structure Admitted (i : Instr) (s : State) : Prop where
  notFaulted : s.session.faulted = false
  bound : i.isCommand = true → i ≠ .init → s.session.bound = true
  carry : (∃ n, i = .sequenceInParity n) → s.session.carryValid = true
  sensing : (∃ n, i = .shiftIn n) → s.session.dir = .sense
  driving : (∃ b n, i = .shiftOut b n) → s.session.dir = .drive

/-- What each cause says of the call that raised it (R173 to R176). -/
def Raises (i : Instr) (s : State) : Cause → Prop
  | .noFatal => False
  | .cycles => i.isCommand = true
  | .carry => i = .sequenceInParity 32 ∧ s.session.carryValid = false
  | .width => i.isCommand = false
  | .illegalOp => False
  | .notBound => i.isCommand = true ∧ i ≠ .init ∧ s.session.bound = false

theorem Raises.ne_noFatal {i : Instr} {s : State} {c : Cause} (h : Raises i s c) : c ≠ .noFatal := by
  rintro rfl
  exact h

/-- A command whose shifts raise no fatal has run: it commits what they left, or hangs where they stopped. -/
theorem settle_ran {α : Type} {m : Dir} {s t : State} {p : Progress α} {commit : α → State → State}
    (h : Host.Outcome.next (φ := Fault) (ρ := Refusal) (settle p commit) = .next t)
    (ht : AdapterTouched m s p.state) (hf : ∀ c u, p ≠ .fatal c u) :
    ∃ u, AdapterTouched m s u ∧ ((∃ a, t = commit a u) ∨ t = hang u) := by
  obtain ⟨a, u, rfl, h'⟩ | ⟨u, rfl, h'⟩ | ⟨c, u, hp, -⟩ := settle_cases h
  · exact ⟨u, ht, .inl ⟨a, h'⟩⟩
  · exact ⟨u, ht, .inr h'⟩
  · exact absurd hp (hf c u)

theorem count_of_mem_outShifts {x : Word} {o : Nat} {ws : List Nat} {p : Word × Nat} (h : p ∈ outShifts x o ws) :
    p.2 ∈ ws := by
  rw [← counts_of_outShifts x o ws]
  exact List.mem_map_of_mem h

theorem count_of_mem_parityShifts {cfg : Cfg} {v : Word} {p : Word × Nat} (h : p ∈ parityShifts cfg v) :
    p.2 = 8 := by
  obtain h | h := List.mem_append.mp h
  · simpa using count_of_mem_outShifts h
  · rw [List.mem_singleton.mp h]

/-- The state a fatal is raised in: a micro-op that raises one has been called (R55). -/
def called (i : Instr) (s : State) : State := if i.isCommand then s else issue i s

/-- Whenever `exec` answers a next state, the call was refused in a faulted session, or raised a fatal before it did
anything, or ran and committed, or ran and hangs. -/
theorem exec_cases {i : Instr} {s t : State} (hc : s.cfg.wf = true) (h : exec i s = .next t) :
    (s.session.faulted = true ∧ t = refuseFaulted s)
      ∨ (s.session.faulted = false ∧ ∃ c, Raises i s c ∧ t = raiseFatal c (called i s))
      ∨ (Admitted i s ∧ ∃ u, AdapterTouched (phaseMode i) (prepared i s) u
          ∧ (Commits s.session.carryValid i u t ∨ t = hang u ∧ shifting i = true)
          ∧ (shifting i = false → u = prepared i s)) := by
  have ok := Cfg.ok hc
  have hsense : (sense s).cfg = s.cfg := by rw [sense_eq]
  have hdrive : (drive (drain s)).cfg = s.cfg := by rw [drive_eq, drain_eq]
  cases i with
  | sequenceIn n =>
    simp only [exec, execSequenceIn] at h
    obtain h | ⟨hf, hb, h⟩ | ⟨hr, h⟩ := whenBound_eq_next h
    · exact .inl h
    · exact .inr (.inl ⟨hf, .notBound, ⟨rfl, nofun, hb⟩, h⟩)
    split at h
    · have ht := shiftIn_touched (ackCycles s.session.carryValid) (sense s)
      have hw := hsense ▸ ok.ack s.session.carryValid
      obtain ⟨u, hu, h⟩ := settle_ran h ht.1 fun c u hp => (ht.2 c u hp).2.2 hw
      exact .inr (.inr ⟨⟨hr.1, fun _ _ => hr.2, nofun, nofun, nofun⟩, u, hu, h.imp_right fun h => ⟨h, rfl⟩, nofun⟩)
    · exact .inr (.inl ⟨hr.1, .cycles, rfl, (Host.Outcome.next.inj h).symm⟩)
  | sequenceInParity n =>
    simp only [exec, execSequenceInParity] at h
    obtain h | ⟨hf, hb, h⟩ | ⟨hr, h⟩ := whenBound_eq_next h
    · exact .inl h
    · exact .inr (.inl ⟨hf, .notBound, ⟨rfl, nofun, hb⟩, h⟩)
    split at h
    · rename_i hn
      split at h
      · rename_i hcv
        have ht := readChunks_touched s.cfg.inParityChunks 0 0 (sense s)
        obtain ⟨u, hu, h⟩ := settle_ran h ht.1 (ht.2 (hsense ▸ ok.inWidths))
        exact .inr (.inr ⟨⟨hr.1, fun _ _ => hr.2, fun _ => hcv, nofun, nofun⟩, u, hu, h.imp_right fun h => ⟨h, rfl⟩, nofun⟩)
      · rename_i hcv
        exact .inr (.inl ⟨hr.1, .carry, ⟨by rw [hn], by simpa using hcv⟩, (Host.Outcome.next.inj h).symm⟩)
    · exact .inr (.inl ⟨hr.1, .cycles, rfl, (Host.Outcome.next.inj h).symm⟩)
  | sequenceOut v n =>
    simp only [exec, execSequenceOut] at h
    obtain h | ⟨hf, hb, h⟩ | ⟨hr, h⟩ := whenBound_eq_next h
    · exact .inl h
    · exact .inr (.inl ⟨hf, .notBound, ⟨rfl, nofun, hb⟩, h⟩)
    split at h
    · rename_i hn
      have ht := writeShifts_touched (outShifts v 0 (s.cfg.outChunks n)) (drive (drain s))
      obtain ⟨u, hu, h⟩ := settle_ran h ht.1
        (ht.2 fun x hx => hdrive ▸ ok.outWidths n hn _ (count_of_mem_outShifts hx))
      exact .inr (.inr ⟨⟨hr.1, fun _ _ => hr.2, nofun, nofun, nofun⟩, u, hu,
        h.imp (fun ⟨_, h⟩ => h) fun h => ⟨h, rfl⟩, nofun⟩)
    · exact .inr (.inl ⟨hr.1, .cycles, rfl, (Host.Outcome.next.inj h).symm⟩)
  | sequenceOutParity v n =>
    simp only [exec, execSequenceOutParity] at h
    obtain h | ⟨hf, hb, h⟩ | ⟨hr, h⟩ := whenBound_eq_next h
    · exact .inl h
    · exact .inr (.inl ⟨hf, .notBound, ⟨rfl, nofun, hb⟩, h⟩)
    split at h
    · have ht := writeShifts_touched (parityShifts s.cfg v) (drive (drain s))
      have h8 := hdrive ▸ ok.eight
      obtain ⟨u, hu, h⟩ := settle_ran h ht.1 (ht.2 fun x hx => (count_of_mem_parityShifts hx).symm ▸ h8)
      exact .inr (.inr ⟨⟨hr.1, fun _ _ => hr.2, nofun, nofun, nofun⟩, u, hu,
        h.imp (fun ⟨_, h⟩ => h) fun h => ⟨h, rfl⟩, nofun⟩)
    · exact .inr (.inl ⟨hr.1, .cycles, rfl, (Host.Outcome.next.inj h).symm⟩)
  | setDivisor v =>
    simp only [exec, execSetDivisor] at h
    obtain h | ⟨hf, hb, h⟩ | ⟨hr, h⟩ := whenBound_eq_next h
    · exact .inl h
    · exact .inr (.inl ⟨hf, .notBound, ⟨rfl, nofun, hb⟩, h⟩)
    exact .inr (.inr ⟨⟨hr.1, fun _ _ => hr.2, nofun, nofun, nofun⟩, _, AdapterTouched.refl ..,
      .inl (Host.Outcome.next.inj h).symm, fun _ => rfl⟩)
  | shiftIn n =>
    simp only [exec, execShiftIn] at h
    obtain h | ⟨hf, h⟩ := unlessFaulted_eq_next h
    · exact .inl h
    split at h
    · cases h
    · rename_i hd
      by_cases hn : n ∈ s.cfg.widths
      · have ht := shiftIn_touched n s
        have hdir : s.session.dir = .sense := by
          cases hs : s.session.dir
          · rfl
          · exact absurd ⟨hn, hs⟩ hd
        obtain ⟨u, hu, h⟩ := settle_ran h ht.1 fun c u hp => (ht.2 c u hp).2.2 hn
        exact .inr (.inr ⟨⟨hf, nofun, nofun, fun _ => hdir, nofun⟩, u, hu, h.imp_right fun h => ⟨h, rfl⟩, nofun⟩)
      · simp only [shiftIn, hn, if_false, settle] at h
        exact .inr (.inl ⟨hf, .width, rfl, (Host.Outcome.next.inj h).symm⟩)
  | shiftOut b n =>
    simp only [exec, execShiftOut] at h
    obtain h | ⟨hf, h⟩ := unlessFaulted_eq_next h
    · exact .inl h
    split at h
    · cases h
    · rename_i hd
      by_cases hn : n ∈ s.cfg.widths
      · have ht := shiftOut_touched b n s
        have hdir : s.session.dir = .drive := by
          cases hs : s.session.dir
          · exact absurd ⟨hn, hs⟩ hd
          · rfl
        obtain ⟨u, hu, h⟩ := settle_ran h ht.1 fun c u hp => (ht.2 c u hp).2.2 hn
        exact .inr (.inr ⟨⟨hf, nofun, nofun, nofun, fun _ => hdir⟩, u, hu,
        h.imp (fun ⟨_, h⟩ => h) fun h => ⟨h, rfl⟩, nofun⟩)
      · simp only [shiftOut, hn, if_false, settle] at h
        exact .inr (.inl ⟨hf, .width, rfl, (Host.Outcome.next.inj h).symm⟩)
  | init =>
    obtain h | ⟨hf, h⟩ := unlessFaulted_eq_next (show execInit s = .next t from h)
    · exact .inl h
    exact .inr (.inr ⟨⟨hf, fun _ hi => absurd rfl hi, nofun, nofun, nofun⟩, _, AdapterTouched.refl ..,
      .inl (Host.Outcome.next.inj h).symm, fun _ => rfl⟩)
  | drain =>
    obtain h | ⟨hf, h⟩ := unlessFaulted_eq_next (show execDrain s = .next t from h)
    · exact .inl h
    exact .inr (.inr ⟨⟨hf, nofun, nofun, nofun, nofun⟩, _, AdapterTouched.refl ..,
      .inl (Host.Outcome.next.inj h).symm, fun _ => rfl⟩)
  | setDiv v =>
    obtain h | ⟨hf, h⟩ := unlessFaulted_eq_next (show execSetDiv v s = .next t from h)
    · exact .inl h
    exact .inr (.inr ⟨⟨hf, nofun, nofun, nofun, nofun⟩, _, AdapterTouched.refl ..,
      .inl (Host.Outcome.next.inj h).symm, fun _ => rfl⟩)
  | drive =>
    obtain h | ⟨hf, h⟩ := unlessFaulted_eq_next (show execDrive s = .next t from h)
    · exact .inl h
    exact .inr (.inr ⟨⟨hf, nofun, nofun, nofun, nofun⟩, _, AdapterTouched.refl ..,
      .inl (Host.Outcome.next.inj h).symm, fun _ => rfl⟩)
  | sense =>
    obtain h | ⟨hf, h⟩ := unlessFaulted_eq_next (show execSense s = .next t from h)
    · exact .inl h
    exact .inr (.inr ⟨⟨hf, nofun, nofun, nofun, nofun⟩, _, AdapterTouched.refl ..,
      .inl (Host.Outcome.next.inj h).symm, fun _ => rfl⟩)

/-! ### What the phase of a call is -/

/-- The shifts an out-class call presents. -/
def phaseOut (cfg : Cfg) : Instr → List (Word × Nat)
  | .sequenceOut v n => outShifts v 0 (cfg.outChunks n)
  | .sequenceOutParity v _ => parityShifts cfg v
  | .shiftOut b n => [(b, n)]
  | .sequenceIn _ => []
  | .sequenceInParity _ => []
  | .init => []
  | .setDivisor _ => []
  | .shiftIn _ => []
  | .drain => []
  | .setDiv _ => []
  | .drive => []
  | .sense => []

/-- The counts an in-class call samples; `cv` is the carry flag. -/
def phaseIn (cfg : Cfg) (cv : Bool) : Instr → List Nat
  | .sequenceIn _ => [ackCycles cv]
  | .sequenceInParity _ => cfg.inParityChunks
  | .shiftIn n => [n]
  | .sequenceOut _ _ => []
  | .sequenceOutParity _ _ => []
  | .shiftOut _ _ => []
  | .init => []
  | .setDivisor _ => []
  | .drain => []
  | .setDiv _ => []
  | .drive => []
  | .sense => []

/-- The bits of the whole phase on the wire, in order. -/
def phaseBits (i : Instr) (s : State) : List Bool :=
  s.coming (phaseIn s.cfg s.session.carryValid i).sum ++ (phaseOut s.cfg i).flatMap fun x => lowBits x.1 x.2

/-- The counts of the phase's shifts. -/
def phaseCounts (i : Instr) (s : State) : List Nat :=
  phaseIn s.cfg s.session.carryValid i ++ (phaseOut s.cfg i).map Prod.snd

/-- The shifts of the phase, as the call trace has them. -/
def phaseOps (i : Instr) (s : State) : List Instr :=
  (phaseIn s.cfg s.session.carryValid i).map Instr.shiftIn ++ (phaseOut s.cfg i).map fun x => Instr.shiftOut x.1 x.2

/-- The two ends of a call that raised no fatal: its phase ran whole and it committed, or a shift of it hangs. -/
def Ended (i : Instr) (s u t : State) : Prop :=
  ShiftsRan (phaseMode i) (phaseBits i s) (phaseCounts i s) (phaseOps i s) (prepared i s) u
      ∧ Commits s.session.carryValid i u t
    ∨ ShiftsBegun (phaseMode i) (phaseBits i s) (phaseCounts i s) (phaseOps i s) (prepared i s) u ∧ t = hang u

theorem settle_out {i : Instr} {s t : State} {xs : List (Word × Nat)} {commit : Unit → State → State}
    (h : Host.Outcome.next (φ := Fault) (ρ := Refusal) (settle (writeShifts xs (prepared i s)) commit) = .next t)
    (hf : t.session.faulted = false)
    (ho : phaseOut s.cfg i = xs) (hi : phaseIn s.cfg s.session.carryValid i = []) (hm : phaseMode i = .drive)
    (hc : ∀ u, Commits s.session.carryValid i u (commit () u)) : ∃ u, Ended i s u t := by
  obtain ⟨_, u, hp, rfl⟩ | ⟨u, hp, rfl⟩ | ⟨c, u, _, rfl⟩ := settle_cases h
  · refine ⟨u, .inl ⟨?_, hc u⟩⟩
    simpa [phaseBits, phaseCounts, phaseOps, ho, hi, hm, State.coming] using writeShifts_ended.1 u hp
  · refine ⟨u, .inr ⟨?_, rfl⟩⟩
    simpa [phaseBits, phaseCounts, phaseOps, ho, hi, hm, State.coming] using writeShifts_ended.2 u hp
  · simp at hf

/-- Whenever `exec` answers a next state that is no fatal, the call's phase ran whole and it committed, or a shift of
it hangs. -/
theorem exec_ended {i : Instr} {s t : State} (h : exec i s = .next t) (hf : t.session.faulted = false) :
    ∃ u, Ended i s u t := by
  have ho : (sense s).oracle = s.oracle := by
    rw [sense_eq]
    exact oracle_congr rfl rfl
  cases i with
  | sequenceIn n =>
    simp only [exec, execSequenceIn] at h
    obtain ⟨_, rfl⟩ | ⟨_, _, rfl⟩ | ⟨_, h⟩ := whenBound_eq_next h
    · simp_all
    · simp at hf
    split at h
    · obtain ⟨r, u, hp, rfl⟩ | ⟨u, hp, rfl⟩ | ⟨c, u, _, rfl⟩ := settle_cases h
      · refine ⟨u, .inl ⟨?_, ⟨r, rfl⟩⟩⟩
        have := (shiftIn_done hp).2
        rw [coming_congr ho] at this
        simpa [phaseBits, phaseCounts, phaseOps, phaseIn, phaseOut, phaseMode, prepared] using this
      · refine ⟨u, .inr ⟨?_, rfl⟩⟩
        have := shiftIn_hung hp
        rw [coming_congr ho] at this
        simpa [phaseBits, phaseCounts, phaseOps, phaseIn, phaseOut, phaseMode, prepared] using this
      · simp at hf
    · cases h
      simp at hf
  | sequenceInParity n =>
    simp only [exec, execSequenceInParity] at h
    obtain ⟨_, rfl⟩ | ⟨_, _, rfl⟩ | ⟨_, h⟩ := whenBound_eq_next h
    · simp_all
    · simp at hf
    split at h
    · split at h
      · obtain ⟨r, u, hp, rfl⟩ | ⟨u, hp, rfl⟩ | ⟨c, u, _, rfl⟩ := settle_cases h
        · refine ⟨u, .inl ⟨?_, ⟨r, rfl⟩⟩⟩
          have := readChunks_ended.1 r u hp
          rw [coming_congr ho] at this
          simpa [phaseBits, phaseCounts, phaseOps, phaseIn, phaseOut, phaseMode, prepared] using this
        · refine ⟨u, .inr ⟨?_, rfl⟩⟩
          have := readChunks_ended.2 u hp
          rw [coming_congr ho] at this
          simpa [phaseBits, phaseCounts, phaseOps, phaseIn, phaseOut, phaseMode, prepared] using this
        · simp at hf
      · cases h
        simp at hf
    · cases h
      simp at hf
  | sequenceOut v n =>
    simp only [exec, execSequenceOut] at h
    obtain ⟨_, rfl⟩ | ⟨_, _, rfl⟩ | ⟨_, h⟩ := whenBound_eq_next h
    · simp_all
    · simp at hf
    split at h
    · exact settle_out h hf rfl rfl rfl fun u => rfl
    · cases h
      simp at hf
  | sequenceOutParity v n =>
    simp only [exec, execSequenceOutParity] at h
    obtain ⟨_, rfl⟩ | ⟨_, _, rfl⟩ | ⟨_, h⟩ := whenBound_eq_next h
    · simp_all
    · simp at hf
    split at h
    · exact settle_out h hf rfl rfl rfl fun u => rfl
    · cases h
      simp at hf
  | shiftIn n =>
    obtain ⟨_, rfl⟩ | ⟨_, h⟩ := unlessFaulted_eq_next (show execShiftIn n s = .next t from h)
    · simp_all
    split at h
    · cases h
    · obtain ⟨r, u, hp, rfl⟩ | ⟨u, hp, rfl⟩ | ⟨c, u, _, rfl⟩ := settle_cases h
      · refine ⟨u, .inl ⟨?_, ⟨r, rfl⟩⟩⟩
        simpa [phaseBits, phaseCounts, phaseOps, phaseIn, phaseOut, phaseMode, prepared] using (shiftIn_done hp).2
      · refine ⟨u, .inr ⟨?_, rfl⟩⟩
        simpa [phaseBits, phaseCounts, phaseOps, phaseIn, phaseOut, phaseMode, prepared] using shiftIn_hung hp
      · simp at hf
  | shiftOut b n =>
    obtain ⟨_, rfl⟩ | ⟨_, h⟩ := unlessFaulted_eq_next (show execShiftOut b n s = .next t from h)
    · simp_all
    split at h
    · cases h
    · obtain ⟨r, u, hp, rfl⟩ | ⟨u, hp, rfl⟩ | ⟨c, u, _, rfl⟩ := settle_cases h
      · refine ⟨u, .inl ⟨?_, rfl⟩⟩
        simpa [phaseBits, phaseCounts, phaseOps, phaseIn, phaseOut, phaseMode, prepared, State.coming]
          using shiftOut_done hp
      · refine ⟨u, .inr ⟨?_, rfl⟩⟩
        simpa [phaseBits, phaseCounts, phaseOps, phaseIn, phaseOut, phaseMode, prepared, State.coming]
          using shiftOut_hung hp
      · simp at hf
  | setDivisor v =>
    simp only [exec, execSetDivisor] at h
    obtain ⟨_, rfl⟩ | ⟨_, _, rfl⟩ | ⟨_, h⟩ := whenBound_eq_next h
    · simp_all
    · simp at hf
    exact ⟨_, .inl ⟨ShiftsRan.refl .., (Host.Outcome.next.inj h).symm⟩⟩
  | init =>
    obtain ⟨_, rfl⟩ | ⟨_, h⟩ := unlessFaulted_eq_next (show execInit s = .next t from h)
    · simp_all
    exact ⟨_, .inl ⟨ShiftsRan.refl .., (Host.Outcome.next.inj h).symm⟩⟩
  | drain =>
    obtain ⟨_, rfl⟩ | ⟨_, h⟩ := unlessFaulted_eq_next (show execDrain s = .next t from h)
    · simp_all
    exact ⟨_, .inl ⟨ShiftsRan.refl .., (Host.Outcome.next.inj h).symm⟩⟩
  | setDiv v =>
    obtain ⟨_, rfl⟩ | ⟨_, h⟩ := unlessFaulted_eq_next (show execSetDiv v s = .next t from h)
    · simp_all
    exact ⟨_, .inl ⟨ShiftsRan.refl .., (Host.Outcome.next.inj h).symm⟩⟩
  | drive =>
    obtain ⟨_, rfl⟩ | ⟨_, h⟩ := unlessFaulted_eq_next (show execDrive s = .next t from h)
    · simp_all
    exact ⟨_, .inl ⟨ShiftsRan.refl .., (Host.Outcome.next.inj h).symm⟩⟩
  | sense =>
    obtain ⟨_, rfl⟩ | ⟨_, h⟩ := unlessFaulted_eq_next (show execSense s = .next t from h)
    · simp_all
    exact ⟨_, .inl ⟨ShiftsRan.refl .., (Host.Outcome.next.inj h).symm⟩⟩

/-- What every commit keeps of the state the shifts left, and that the call is over. -/
structure Kept (u t : State) : Prop where
  faulted : t.session.faulted = u.session.faulted
  cause : t.session.cause = u.session.cause
  faultCmd : t.session.faultCmd = u.session.faultCmd
  dir : t.session.dir = u.session.dir
  width : t.session.width = u.session.width
  clkdiv : t.session.clkdiv = u.session.clkdiv
  bound : t.session.bound = u.session.bound
  wire : t.wire = u.wire
  calls : t.calls = u.calls
  config : t.config = u.config
  slots : t.slots = u.slots
  pin : t.pin = u.pin
  shifterWidth : t.shifterWidth = u.shifterWidth
  upc : t.upc = u.upc
  shifts : t.shifts = u.shifts
  cfg : t.cfg = u.cfg
  busy : t.busy = false

theorem commits_kept {cv : Bool} {i : Instr} {u t : State} (h : Commits cv i u t) : Kept u t := by
  cases i <;> simp only [Commits] at h
  case sequenceIn => obtain ⟨_, rfl⟩ := h; constructor <;> rfl
  case sequenceInParity => obtain ⟨_, rfl⟩ := h; constructor <;> rfl
  case shiftIn => obtain ⟨_, rfl⟩ := h; constructor <;> rfl
  all_goals subst h; constructor <;> rfl

/-! ### One inversion lemma for `step` -/

/-- A step that goes on has a well-formed configuration (R175, U6). -/
theorem wf_of_step {s t : State} (h : step s = .next t) : s.cfg.wf = true := by
  cases hc : s.cfg.wf
  · simp [step, fetch, hc] at h
  · rfl

/-- Whenever `step` answers a next state: nothing was presented, or the reset input was, or a word with an illegal
`op`, or an instruction ran. -/
theorem step_cases {s t : State} (hc : s.cfg.wf = true) (h : step s = .next t) :
    (s.inputs = [] ∧ t = s)
      ∨ (∃ rest, s.inputs = .reset :: rest ∧ t = resetInput rest s)
      ∨ (∃ w rest e, s.inputs = .command w :: rest ∧ s.busy = false ∧ decodeCommand w = .error e
          ∧ t = rejectOp (accept w rest s))
      ∨ (∃ w rest i, (s.inputs = .command w :: rest ∧ decodeCommand w = .ok i
            ∨ s.inputs = .microOp w :: rest ∧ decodeMicroOp w = .ok i)
          ∧ s.busy = false ∧ exec i (accept w rest s) = .next t) := by
  simp only [step, fetch, hc, if_true] at h
  unfold nextInput at h
  cases hi : s.inputs with
  | nil =>
    simp only [hi] at h
    exact .inl ⟨rfl, (Host.Outcome.next.inj h).symm⟩
  | cons x rest =>
    cases x with
    | reset =>
      simp only [hi] at h
      exact .inr (.inl ⟨rest, rfl, (Host.Outcome.next.inj h).symm⟩)
    | command w =>
      cases hb : s.busy
      · cases hd : decodeCommand w <;> simp only [hi, hb, hd, Bool.false_eq_true, if_false] at h
        · exact .inr (.inr (.inl ⟨w, rest, _, rfl, rfl, hd, (Host.Outcome.next.inj h).symm⟩))
        · exact .inr (.inr (.inr ⟨w, rest, _, .inl ⟨rfl, hd⟩, rfl, h⟩))
      · simp only [hi, hb, if_true] at h
        cases h
    | microOp w =>
      cases hb : s.busy
      · cases hd : decodeMicroOp w <;> simp only [hi, hb, hd, Bool.false_eq_true, if_false] at h
        · cases h
        · exact .inr (.inr (.inr ⟨w, rest, _, .inr ⟨rfl, hd⟩, rfl, h⟩))
      · simp only [hi, hb, if_true] at h
        cases h

end Sys2Proof.Machine
end

