-- ==== Sys2Proof/Laws/PerInstr.lean ====
section
/-! SUPPORT. Facts about each instruction as syntax, one lemma for each constructor. -/

namespace Sys2Proof.Laws.OpField

/-- The word of an instruction has the opcode of its row in bits 47:40 (spec 30_encoding.md R71, R73, R74). -/
def Statement (i : Instr) : Prop := opField (encode i) = opcode i

theorem sequenceIn (cycles : Nat) : Statement (.sequenceIn cycles) := opField_packWord ..
theorem sequenceInParity (cycles : Nat) : Statement (.sequenceInParity cycles) := opField_packWord ..
theorem sequenceOut (value : Word) (cycles : Nat) : Statement (.sequenceOut value cycles) := opField_packWord ..
theorem sequenceOutParity (value : Word) (cycles : Nat) : Statement (.sequenceOutParity value cycles) :=
  opField_packWord ..
theorem init : Statement .init := opField_packWord ..
theorem setDivisor (value : Word) : Statement (.setDivisor value) := opField_packWord ..
theorem shiftIn (n : Nat) : Statement (.shiftIn n) := opField_packWord ..
theorem shiftOut (b : Word) (n : Nat) : Statement (.shiftOut b n) := opField_packWord ..
theorem drain : Statement .drain := opField_packWord ..
theorem setDiv (v : Word) : Statement (.setDiv v) := opField_packWord ..
theorem drive : Statement .drive := opField_packWord ..
theorem sense : Statement .sense := opField_packWord ..

end Sys2Proof.Laws.OpField
end

