-- ==== Sys2Proof/Tests/Slice0.lean ====
section
/-! SUPPORT. The model's own tests. Expected results come from spec 95_test_vectors.md and from the encodings of
30_encoding.md (the id of the vector stands in each comment), never from the model. Then one witness for the hypotheses
of each statement. -/

namespace Sys2Proof.Tests

open Sys2Proof Sys2Proof.Machine

/-! ### Helpers -/

/-- A field of the state a call goes on in. -/
def after {α : Type} (o : Host.Outcome State Fault Refusal) (f : State → α) : Option α :=
  match o with
  | .next t => some (f t)
  | .fault _ => none
  | .refused _ => none

/-- State B of 95_test_vectors.md (reset, then `init`), with the bits the target will present and the next eight shifts
ready. -/
def bound (target : List Bool) : State :=
  { State.reset with
    session := { Session.reset Config.cfg false with bound := true }
    slots := capabilityTable
    target := target
    shifts := List.replicate 8 .ready }

/-- The same under a configuration that uses other chunks and other padding, well formed too. -/
def rechunked (s : State) : State :=
  { s with cfg := { s.cfg with inParityChunks := [16, 13, 4], outChunks12 := [12], pad7 := 0x7F } }

/-- A configuration that is not well formed: its parity chunks do not sum to 33. -/
def illFormed (s : State) : State := { s with cfg := { s.cfg with inParityChunks := [8, 8, 8, 8] } }

/-- State B in DRIVE mode. -/
def driving : State := { bound [] with session.dir := .drive, pin := .pushPull }

/-- State B after an ACK read that left the carry `c`. -/
def carried (c : Bool) (target : List Bool) : State :=
  { bound target with session.carry := c, session.carryValid := true, session.result := 1 }

/-- State B after the fatal of vector F8. -/
def faulted : State :=
  { bound [] with
    session.faulted := true
    session.cause := .carry
    session.faultCmd := 0x012000000000 }

/-- State B with one thing presented. -/
def presenting (x : Input) : State := { bound [] with inputs := [x] }

/-- A wire trace of one mode, written as digits in time order. -/
def trace (mode : Dir) (bits : List Nat) : List Cyc := bits.map fun b => ⟨mode, b == 1⟩

/-! ### WellFormed: an ill-formed term for each check -/

theorem test_wf_accepts :
    (Instr.sequenceIn 255).wf ∧ (Instr.sequenceInParity 255).wf ∧ (Instr.sequenceOut 0 255).wf
      ∧ (Instr.sequenceOutParity 0 255).wf ∧ (Instr.shiftIn 255).wf ∧ (Instr.shiftOut 0 255).wf := by decide

theorem test_wf_sequenceIn : (Instr.sequenceIn 256).wf = false := by decide
theorem test_wf_sequenceInParity : (Instr.sequenceInParity 256).wf = false := by decide
theorem test_wf_sequenceOut : (Instr.sequenceOut 0xA5 256).wf = false := by decide
theorem test_wf_sequenceOutParity : (Instr.sequenceOutParity 5 256).wf = false := by decide
theorem test_wf_shiftIn : (Instr.shiftIn 256).wf = false := by decide
theorem test_wf_shiftOut : (Instr.shiftOut 0xA5 256).wf = false := by decide

/-- The defaults of R7 are well formed, and the chunk list of vector Q7. -/
theorem test_cfg_wf : Config.cfg.wf ∧ { Config.cfg with inParityChunks := [16, 13, 4] : Cfg }.wf := by decide

theorem test_cfg_chunk_width : ({ Config.cfg with inParityChunks := [17, 16] : Cfg }).wf = false := by decide
theorem test_cfg_chunk_sum : ({ Config.cfg with inParityChunks := [8, 8, 8, 8] : Cfg }).wf = false := by decide
theorem test_cfg_out8 : ({ Config.cfg with outChunks8 := [4] : Cfg }).wf = false := by decide
theorem test_cfg_out12 : ({ Config.cfg with outChunks12 := [10, 2] : Cfg }).wf = false := by decide
theorem test_cfg_out16 : ({ Config.cfg with outChunks16 := [] : Cfg }).wf = false := by decide
theorem test_cfg_out32 : ({ Config.cfg with outChunks32 := [16] : Cfg }).wf = false := by decide

/-- Without 4, without 5, without 8 in `WIDTHS`; no chunk list uses them. -/
theorem test_cfg_widths :
    [4, 5, 8].all (fun w => !({ Config.cfg with
      widths := Config.cfg.widths.filter (· != w), widthReset := 16, inParityChunks := [16, 10, 7]
      outChunks8 := [], outChunks12 := [12], outChunks16 := [16], outChunks32 := [16, 16] : Cfg }).wf) := by decide
theorem test_cfg_width_reset : ({ Config.cfg with widthReset := 3 : Cfg }).wf = false := by decide
theorem test_cfg_width_size : ({ Config.cfg with widths := 32 :: Config.cfg.widths : Cfg }).wf = false := by decide
theorem test_cfg_clkdiv_bits : ({ Config.cfg with clkdivBits := 33 : Cfg }).wf = false := by decide

/-! ### Decode: words written out from R71, R73, R74, R80 -/

theorem test_decode_sequenceIn : decode 0x000300000000 = .ok (.sequenceIn 3) := by decide
theorem test_decode_sequenceInParity : decode 0x012000000000 = .ok (.sequenceInParity 32) := by decide
theorem test_decode_sequenceOut : decode 0x020CFFFFF123 = .ok (.sequenceOut 0xFFFFF123 12) := by decide
theorem test_decode_sequenceOutParity : decode 0x0320DEADBEEF = .ok (.sequenceOutParity 0xDEADBEEF 32) := by decide
theorem test_decode_init : decode 0x040000000000 = .ok .init := by decide
theorem test_decode_setDivisor : decode 0x050000000004 = .ok (.setDivisor 4) := by decide
theorem test_decode_shiftIn : decode 0x100500000000 = .ok (.shiftIn 5) := by decide
theorem test_decode_shiftOut : decode 0x1108000000A5 = .ok (.shiftOut 0xA5 8) := by decide
theorem test_decode_drain : decode 0x120000000000 = .ok .drain := by decide
theorem test_decode_setDiv : decode 0x130000000007 = .ok (.setDiv 7) := by decide
theorem test_decode_drive : decode 0x140000000000 = .ok .drive := by decide
theorem test_decode_sense : decode 0x150000000000 = .ok .sense := by decide

/-- I6, B3: ignored fields. -/
theorem test_decode_ignored :
    decode 0x0003DEADBEEF = .ok (.sequenceIn 3) ∧ decode 0x04FFFFFFFFFF = .ok .init
      ∧ decode 0x05FF00000004 = .ok (.setDivisor 4) := by decide

/-- F4, F5, F6: what the command port does not accept; and the inner interface takes no command (R74). -/
theorem test_decode_rejects :
    decodeCommand 0x060000000000 = .error (.unknownOp 0x06)
      ∧ decodeCommand 0x100500000000 = .error (.microOpOnCommandPort 0x10)
      ∧ decodeCommand 0xFF0000000000 = .error (.unknownOp 0xFF)
      ∧ decodeMicroOp 0x000300000000 = .error (.commandOnInnerPort 0x00) := by decide

theorem test_encode :
    encode (.sequenceOut 0xA5 8) = 0x0208000000A5 ∧ encode (.sequenceOutParity 0x12345678 32) = 0x032012345678
      ∧ encode (.setDiv 7) = 0x130000000007 := by decide

theorem test_decodeTableWord :
    decodeTableWord 48 0x0208000000A5 = some (.sequenceOut 0xA5 8) ∧ decodeTableWord 48 0x060000000000 = none := by
  decide

/-! ### One step of each instruction -/

/-- S1: 5 cycles, the first bit dropped. -/
theorem test_sequenceIn_five :
    after (exec (.sequenceIn 3) (bound [false, true, false, false, true])) (fun t =>
      (t.session.result, t.session.carry, t.session.width, t.wire, t.config))
      = some (1, true, 5, trace .sense [0, 1, 0, 0, 1], [.reconfWidth 5]) := by decide

/-- S3, the second call: 4 cycles. -/
theorem test_sequenceIn_four :
    after (exec (.sequenceIn 3) (carried false [false, true, false, true])) (fun t =>
      (t.session.result, t.session.carry, t.session.width, t.wire)) = some (2, true, 4, trace .sense [0, 1, 0, 1]) := by
  decide

/-- P1, step 3: 0x12345678 with its right parity bit. -/
theorem test_sequenceInParity_word :
    after (exec (.sequenceInParity 32) (carried false ((List.range 31).map (fun i =>
      (0x12345678 : Word).getLsbD (i + 1)) ++ [true, false]))) (fun t =>
        (t.reply, t.session.carryValid, t.wire.length)) = some (.data 0x12345678 false, false, 33) := by decide

/-- S6: all ones with the parity bit flipped. -/
theorem test_sequenceInParity_mismatch :
    after (exec (.sequenceInParity 32) (carried true (List.replicate 32 true ++ [false]))) (fun t =>
      (t.session.result, t.session.perr, t.session.faulted)) = some (0xFFFFFFFF, true, false) := by decide

/-- O2: 12 cycles as 8 and 4. -/
theorem test_sequenceOut_twelve :
    after (exec (.sequenceOut 0xABC 12) driving) (fun t => (t.wire, t.calls, t.session.width))
      = some (trace .drive [0, 0, 1, 1, 1, 1, 0, 1, 0, 1, 0, 1],
          [.drain, .drive, .shiftOut 0xBC 8, .shiftOut 0xA 4], 4) := by decide

/-- O7: from SENSE mode with a valid carry. -/
theorem test_sequenceOut_drops_the_carry :
    after (exec (.sequenceOut 0xFF 8) (carried true [])) (fun t =>
      (t.wire, t.config, t.session.carryValid, t.session.result))
      = some (trace .drive [1, 1, 1, 1, 1, 1, 1, 1], [.drained, .reconfPin .drive], false, 1) := by decide

/-- W1: the calls, and wire bits 32 to 39. -/
theorem test_sequenceOutParity_word :
    after (exec (.sequenceOutParity 0x12345678 32) driving) (fun t => (t.calls, t.wire.drop 32))
      = some ([.drain, .drive, .shiftOut 0x78 8, .shiftOut 0x56 8, .shiftOut 0x34 8, .shiftOut 0x12 8, .shiftOut 1 8],
          trace .drive [1, 0, 0, 0, 0, 0, 0, 0]) := by decide

/-- W4: the last data bit and the parity bit. -/
theorem test_sequenceOutParity_last_bit :
    after (exec (.sequenceOutParity 0x80000000 32) driving) (fun t => t.wire)
      = some (trace .drive (List.replicate 31 0 ++ [1, 1, 0, 0, 0, 0, 0, 0, 0])) := by decide

/-- B2: after a 12-cycle output. -/
theorem test_init :
    after (exec .init { driving with session.width := 4, shifterWidth := 4, session.carryValid := true }) (fun t =>
      (t.session.dir, t.session.width, t.session.carryValid, t.config.take 2))
      = some (.sense, 8, false, [.reconfPin .sense, .reconfWidth 8]) := by decide

/-- B4, and Q4: the carry survives. -/
theorem test_setDivisor :
    after (exec (.setDivisor 4) (carried true [])) (fun t => (t.session.clkdiv, t.config, t.session.carryValid))
      = some (4, [.reconfDiv 4], true) := by decide

/-- R154: `value[CLKDIV_BITS-1:0]`, with a divisor of 8 bits. -/
theorem test_setDivisor_bits :
    after (exec (.setDivisor 0x1FF) { bound [] with cfg := { Config.cfg with clkdivBits := 8 } }) (fun t =>
      (t.session.clkdiv, t.config)) = some (0xFF, [.reconfDiv 0xFF]) := by decide

/-- A1. -/
theorem test_shiftIn :
    after (exec (.shiftIn 5) (bound [false, true, false, false, true])) (fun t => (t.reply, t.session.width))
      = some (.bits 0x12, 5) := by decide

/-- A13: never ready, here after 3 of its 8 cycles. -/
theorem test_shiftIn_hangs :
    after (exec (.shiftIn 8) { bound [true, true, false, true] with shifts := [.never 3] }) (fun t =>
      (t.busy, t.wire, t.session.width)) = some (true, trace .sense [1, 1, 0], 8) := by decide

/-- A6. -/
theorem test_shiftOut :
    after (exec (.shiftOut 0x1A5 8) driving) (fun t => t.wire) = some (trace .drive [1, 0, 1, 0, 0, 1, 0, 1]) := by decide

/-- A9; and the shift is in the call trace, as called (R55). -/
theorem test_shiftOut_width :
    after (exec (.shiftOut 0 17) driving) (fun t => (t.session.cause, t.session.width, t.wire, t.calls))
      = some (.width, 8, [], [.shiftOut 0 17]) := by decide

/-- A11. -/
theorem test_drain :
    after (exec .drain { bound [] with rxbuf := [true] }) (fun t => (t.rxbuf, t.config, t.wire))
      = some ([], [.drained], []) := by decide

/-- A12: emitted although unchanged. -/
theorem test_setDiv :
    after (exec (.setDiv 7) { bound [] with session.clkdiv := 7 }) (fun t => (t.session.clkdiv, t.config))
      = some (7, [.reconfDiv 7]) := by decide

/-- C1, C2. -/
theorem test_drive :
    after (exec .drive (bound [])) (fun t => (t.session.dir, t.pin, t.config))
        = some (.drive, .pushPull, [.reconfPin .drive])
      ∧ after (exec .drive driving) (fun t => (t.session.dir, t.config, t.calls)) = some (.drive, [], [.drive]) := by
  decide

/-- C3, C4. -/
theorem test_sense :
    after (exec .sense driving) (fun t => (t.session.dir, t.config)) = some (.sense, [.reconfPin .sense])
      ∧ after (exec .sense (bound [])) (fun t => (t.session.dir, t.config, t.calls)) = some (.sense, [], [.sense]) := by
  decide

/-- F1: before bring-up, from the reset state. -/
theorem test_fatal_not_bound :
    after (step (State.reset.withFetchWord 48 0x000300000000)) (fun t =>
      (t.session.faulted, t.session.cause, t.session.faultCmd, t.calls)) = some (true, .notBound, 0x000300000000, []) := by
  decide

/-- F5: a micro-op word on the command port. -/
theorem test_fatal_illegal_op :
    after (step { bound [] with inputs := [.command 0x100500000000] }) (fun t =>
      (t.session.cause, t.session.faultCmd, t.status)) = some (.illegalOp, 0x100500000000, 0b10010) := by decide

/-- F7: the count is looked at before the carry. -/
theorem test_fatal_cycles_first :
    after (exec (.sequenceInParity 31) (bound [])) (fun t => t.session.cause) = some .cycles := by decide

/-- F10: `init` in a faulted session. -/
theorem test_refused_init :
    after (exec .init faulted) (fun t => (t.session.cause, t.session.faultCmd, t.config, t.reply))
      = some (.carry, 0x012000000000, [], .refused .carry) := by decide

/-- F12: the reset input clears the latch (R177). -/
theorem test_reset_clears :
    after (step { faulted with inputs := [.reset] }) (fun t => (t.session.faulted, t.session.cause, t.session.faultCmd))
      = some (false, .noFatal, 0) := by decide

/-- B1: the word of `init` is the first instruction after reset. -/
theorem test_first_instruction :
    after (step (State.reset.withFetchWord 48 0x040000000000)) (fun t => (t.session.bound, t.slots))
      = some (true, [.sequenceIn, .sequenceInParity, .sequenceOut, .sequenceOutParity]) := by decide

/-- C1 from reset: a micro-op word goes to the inner interface. -/
theorem test_first_micro_op :
    after (step (State.reset.withFetchWord 48 0x140000000000)) (fun t => t.config) = some [.reconfPin .drive] := by
  decide

/-- U6: nothing runs under an ill-formed configuration. -/
theorem test_ill_formed_configuration :
    step (illFormed (presenting (.command 0x000300000000))) = .refused .illFormedConfiguration := rfl

/-- Q7: the parity read as 16, 13 and 4. -/
theorem test_other_chunks :
    after (exec (.sequenceInParity 32) (rechunked (carried true (List.replicate 31 true ++ [false, false])))) (fun t =>
      (t.reply, t.calls)) = some (.data 0xFFFFFFFF false, [.sense, .shiftIn 16, .shiftIn 13, .shiftIn 4]) := by decide

/-- U10: the overhead bits are PAD7, here all ones; the parity bit of 0 is 0. -/
theorem test_other_padding :
    after (exec (.sequenceOutParity 0 32) (rechunked driving)) (fun t => t.wire.drop 32)
      = some (trace .drive [0, 1, 1, 1, 1, 1, 1, 1]) := by decide

/-- A shift right after reset, where no readiness is listed: it goes on, whether it becomes ready or hangs. -/
theorem test_first_shift :
    after (step (State.reset.withFetchWord 48 0x100500000000)) (fun _ => true) = some true := by decide

/-! ### Witnesses: each statement's hypotheses are met -/

theorem witness_encodable :
    ([.sequenceIn 255, .sequenceInParity 255, .sequenceOut 1 255, .sequenceOutParity 1 255, .init, .setDivisor 1,
      .shiftIn 255, .shiftOut 1 255, .drain, .setDiv 1, .drive, .sense] : List Instr).all Instr.wf := by
  decide

theorem witness_ignored_fields :
    (opField 0x0003DEADBEEF = opField 0x000300000000 ∧ cyclesField 0x0003DEADBEEF = cyclesField 0x000300000000)
      ∧ (opField 0x13FF00000007 = opField 0x130000000007 ∧ valueField 0x13FF00000007 = valueField 0x130000000007)
      ∧ opField 0x04FFFFFFFFFF = opField 0x040000000000 := by decide

theorem witness_slot :
    32 < 256 ∧ capabilityTable[0]? = some .sequenceIn ∧ capabilityTable[1]? = some .sequenceInParity
      ∧ capabilityTable[2]? = some .sequenceOut ∧ capabilityTable[3]? = some .sequenceOutParity := by decide

theorem witness_presented :
    (presenting (.command 0x000300000000)).cfg.wf = true ∧ (presenting (.command 0x000300000000)).busy = false
      ∧ (presenting (.command 0x000300000000)).inputs = [.command 0x000300000000]
      ∧ decodeCommand 0x000300000000 = .ok (.sequenceIn 3)
      ∧ (presenting (.microOp 0x150000000000)).busy = false
      ∧ (presenting (.microOp 0x150000000000)).inputs = [.microOp 0x150000000000]
      ∧ decodeMicroOp 0x150000000000 = .ok .sense := by decide

theorem witness_nothing_presented : State.reset.cfg.wf = true ∧ State.reset.inputs = [] := by decide

theorem witness_ill_formed : (illFormed (bound [])).cfg.wf = false := by decide

/-- Another well-formed configuration than the defaults, in a state and alone. -/
theorem witness_rechunked : (rechunked (bound [])).cfg.wf = true ∧ (rechunked (carried true [])).canRun := by decide

/-- State B in a hang, with one more thing presented. -/
def hanging (x : Input) : State := { presenting x with busy := true }

theorem witness_busy :
    (hanging (.command 0x000300000000)).cfg.wf = true ∧ (hanging (.command 0x000300000000)).busy = true
      ∧ (hanging (.command 0x000300000000)).inputs = [.command 0x000300000000]
      ∧ (hanging (.microOp 0x150000000000)).busy = true
      ∧ (hanging (.microOp 0x150000000000)).inputs = [.microOp 0x150000000000] := by decide

theorem witness_not_a_micro_op :
    (presenting (.microOp 0x160000000000)).cfg.wf = true ∧ (presenting (.microOp 0x160000000000)).busy = false
      ∧ (presenting (.microOp 0x160000000000)).inputs = [.microOp 0x160000000000]
      ∧ ¬ (0x10 ≤ (opField 0x160000000000).toNat ∧ (opField 0x160000000000).toNat ≤ 0x15)
      ∧ ¬ (0x10 ≤ (opField 0x0F0000000000).toNat ∧ (opField 0x0F0000000000).toNat ≤ 0x15) := by decide

theorem witness_illegal_op :
    (presenting (.command 0x060000000000)).cfg.wf = true ∧ (presenting (.command 0x060000000000)).busy = false
      ∧ (presenting (.command 0x060000000000)).session.faulted = false
      ∧ (presenting (.command 0x060000000000)).inputs = [.command 0x060000000000]
      ∧ 0x05 < (opField 0x060000000000).toNat := by decide

theorem witness_reset_presented :
    (hanging .reset).cfg.wf = true ∧ (hanging .reset).inputs = [.reset] := by decide

theorem witness_can_run : (bound []).canRun ∧ (carried true []).canRun ∧ driving.canRun := by decide

theorem witness_illegal_counts :
    (bound []).canRun ∧ (2 ≠ 3 ∧ 4 ≠ 3 ∧ 0 ≠ 3) ∧ (31 ≠ 32 ∧ 33 ≠ 32)
      ∧ [0, 7, 9, 11, 13, 15, 17, 31, 33].all (fun n => n ≠ 8 ∧ n ≠ 12 ∧ n ≠ 16 ∧ n ≠ 32) := by decide

/-- Calls that end in a fatal: two commands, and a shift. -/
theorem witness_fatal :
    (bound []).cfg.wf = true ∧ (bound []).session.faulted = false
      ∧ after (exec (.sequenceIn 4) (bound [])) (fun t => t.session.faulted) = some true
      ∧ after (exec (.sequenceInParity 32) (bound [])) (fun t => t.session.cause) = some .carry
      ∧ after (exec (.shiftIn 3) (bound [])) (fun t => (t.session.faulted, t.session.cause)) = some (true, .width) := by
  decide

theorem witness_no_carry : (bound []).canRun ∧ (bound []).session.carryValid = false := by decide

theorem witness_before_bring_up :
    opField 0x05FF00000004 = 0x05 ∧ opField 0x140000000000 = 0x14 ∧ opField 0x150000000000 = 0x15 ∧
    State.reset.session.faulted = false ∧ State.reset.session.bound = false
      ∧ (Instr.setDivisor 4).isCommand = true ∧ Instr.setDivisor 4 ≠ .init := by decide

theorem witness_shift_counts :
    (bound []).session.faulted = false ∧ 3 ∉ (bound []).cfg.widths ∧ 17 ∉ (bound []).cfg.widths
      ∧ 4 ∈ (bound []).cfg.widths ∧ 16 ∈ (bound []).cfg.widths := by decide

/-- The faulted session with one thing presented. -/
def faultedWith (x : Input) : State := { faulted with inputs := [x] }

theorem witness_faulted :
    (faultedWith .reset).cfg.wf = true ∧ (faultedWith (.command 0x040000000000)).session.faulted = true ∧ (faultedWith .reset).session.faulted = true
      ∧ (faultedWith .reset).inputs = [.reset] ∧ (faultedWith (.command 0x040000000000)).busy = false
      ∧ (faultedWith (.command 0x040000000000)).inputs = [.command 0x040000000000]
      ∧ ∀ rest, (faultedWith (.command 0x040000000000)).inputs ≠ .reset :: rest :=
  ⟨by decide, rfl, rfl, rfl, rfl, rfl, fun _ => nofun⟩

/-- `init` in that session: a step that answers a next state. -/
theorem witness_faulted_step :
    after (step (faultedWith (.command 0x040000000000))) (fun t => t.session.faulted) = some true := by decide

theorem witness_sense_ready :
    (bound []).session.faulted = false ∧ (bound []).session.dir = .sense ∧ (bound []).readyFor 1 := by decide

theorem witness_drive_ready :
    driving.session.faulted = false ∧ driving.session.dir = .drive ∧ driving.readyFor 1 := by decide

/-- A ready input that is listed, and a later one that never comes. -/
theorem witness_ready_then_never : ({ bound [] with shifts := [.ready, .never 0] : State }).readyFor 1 := by decide

theorem witness_hung :
    (bound []).session.dir = .sense ∧ ({ bound [] with shifts := [.never 16] } : State).readiness 0 = .never 16
      ∧ driving.session.dir = .drive ∧ ({ driving with shifts := [.never 0] } : State).readiness 0 = .never 0 := by decide

theorem witness_no_carry_ready :
    (bound []).canRun ∧ (bound []).session.carryValid = false ∧ (bound []).readyFor 1 := by decide

theorem witness_carry_ready :
    (carried true []).canRun ∧ (carried true []).session.carryValid = true ∧ (carried true []).readyFor 5 := by decide

/-- A raw read that completes, and one that hangs (I5: `WIDTH` = 5), for the statements over every next state. -/
theorem witness_raw_read :
    after (exec (.sequenceIn 3) (bound [])) (fun t => t.busy) = some false
      ∧ after (exec (.sequenceIn 3) { bound [] with shifts := [.never 2] }) (fun t =>
          (t.busy, t.session.dir, t.session.width, t.session.carryValid)) = some (true, .sense, 5, false) := by decide

theorem witness_parity_read :
    after (exec (.sequenceInParity 32) (carried true [])) (fun t => t.busy) = some false
      ∧ after (exec (.sequenceInParity 32) { carried true [] with shifts := [.ready, .ready, .never 5] }) (fun t =>
          (t.busy, t.wire.length, t.session.carryValid)) = some (true, 21, true) := by decide

theorem witness_two_configurations :
    (carried true []).canRun ∧ (rechunked (bound [])).cfg.wf = true ∧ (carried true []).session.carryValid = true
      ∧ (carried true []).readyFor (carried true []).cfg.inParityChunks.length
      ∧ (carried true []).readyFor (rechunked (bound [])).cfg.inParityChunks.length := by decide

theorem witness_out_counts :
    [8, 12, 16, 32].all (fun n => driving.canRun ∧ driving.readyFor (driving.cfg.outChunks n).length
      ∧ driving.readyFor ((rechunked driving).cfg.outChunks n).length) := by decide

theorem witness_parity_output : driving.canRun ∧ driving.readyFor 5 ∧ (rechunked driving).canRun := by decide

/-- The read side of S2, in the state after the ACK read that took data bit 0 as the carry. -/
def reading (p : Bool) : State :=
  carried false ((List.range 31).map (fun i => (0x12345678 : Word).getLsbD (i + 1)) ++ [p, true])

/-- The exact form of R146, with the parity bit right (true: 13 ones) and wrong. -/
theorem witness_reading_exact :
    (reading true).session.carry = (0x12345678 : Word).getLsbD 0
      ∧ (∀ i, i < 31 → (reading true).oracle i = (0x12345678 : Word).getLsbD (i + 1))
      ∧ (reading true).oracle 31 = parity32 0x12345678
      ∧ (∀ i, i < 31 → (reading false).oracle i = (0x12345678 : Word).getLsbD (i + 1))
      ∧ (reading false).oracle 31 = !parity32 0x12345678 := by decide

theorem witness_reading :
    (reading true).canRun ∧ (reading true).session.carryValid = true ∧ (reading true).readyFor 5
      ∧ (reading false).canRun ∧ (reading false).session.carryValid = true ∧ (reading false).readyFor 5 := by decide

/-- S2: what the write side drives, and what the read side is presented, agree. -/
theorem witness_round_trip :
    after (exec (.sequenceOutParity 0x12345678 32) driving) (fun t =>
        (t.session.faulted, t.busy, (t.wire.map Cyc.bit)[0]?, (t.wire.map Cyc.bit)[32]?,
          (List.range 31).all fun i => (t.wire.map Cyc.bit)[i + 1]? == some ((reading true).oracle i)))
        = some (false, false, some (reading true).session.carry, some ((reading true).oracle 31), true)
      ∧ (reading true).oracle 31 = !(reading false).oracle 31 := by decide

/-- Each clause of the carry's state machine has a run that ends. -/
theorem witness_carry_states :
    after (exec (.sequenceIn 3) (bound [])) (fun t => t.busy) = some false
      ∧ after (exec (.sequenceInParity 32) (bound [])) (fun t => t.busy) = some false
      ∧ after (exec (.sequenceInParity 32) (carried true [])) (fun t => t.busy) = some false
      ∧ after (exec (.sequenceOut 5 12) (carried true [])) (fun t => t.busy) = some false
      ∧ after (exec (.sequenceOutParity 5 32) (carried true [])) (fun t => t.busy) = some false
      ∧ after (exec .init (carried true [])) (fun t => t.busy) = some false
      ∧ after (exec (.setDivisor 5) (carried true [])) (fun t => t.busy) = some false := by decide

/-- A call that completes outside a fatal, and one for each hypothesis on the instruction. -/
theorem witness_completed_calls :
    [Instr.sequenceIn 3, .sequenceOut 1 8, .init, .setDivisor 1, .shiftIn 4, .drain, .setDiv 1, .drive, .sense].all
      (fun i => after (exec i (bound [])) (fun t => (t.busy, t.session.faulted)) == some (false, false)) := by decide

theorem witness_hung_call :
    after (exec (.sequenceOut 0xA5 16) { bound [] with shifts := [.ready, .never 3] }) (fun t =>
        (t.busy, t.wire.length, t.upc)) = some (true, 11, 3)
      ∧ ({ bound [] with shifts := [.ready, .ready] } : State).readyFor
        (shiftCount (bound []).cfg (.sequenceOut 0xA5 16))
      ∧ after (exec (.sequenceOut 0xA5 16) { bound [] with shifts := [.ready, .ready] }) (fun t => (t.busy, t.upc))
        = some (false, 4) := by decide

theorem witness_inv_bound : Inv (bound []) := by
  constructor
  case clkdiv => exact divisorOf_divisorOf Config.cfg Config.clkdivReset
  all_goals decide

theorem witness_inv_step :
    after (step { bound [] with inputs := [.command 0x000300000000] }) (fun t => t.session.carryValid) = some true := by
  decide

end Sys2Proof.Tests
end

section
/-! SUPPORT. The opcode map read by mask and match (spec 30_encoding.md R73), and the words the command port turns away
(R75). -/

namespace Sys2Proof

/-! ### Mask and match -/

/-- A word of which only the `op` field is set: the shape of the mask and of every match value of R73. -/
theorem getLsbD_packWord_op (op : BitVec 8) (i : Nat) :
    (packWord op 0 0).getLsbD i = (decide (40 ≤ i) && op.getLsbD (i - 40)) := by
  have hsplit : (packWord op 0 0 : CommandWord) = op ++ (0#40 : BitVec 40) := by
    simp only [packWord, BitVec.append_assoc]; rfl
  rw [hsplit, show (op ++ (0#40 : BitVec 40) : CommandWord).getLsbD i = _ from BitVec.getLsbD_append]
  by_cases hi : i < 40
  · simp [hi, show ¬ 40 ≤ i by omega]
  · simp [hi, show 40 ≤ i by omega]

/-- The mask of R73 leaves the `op` field and clears the `cycles` and `value` fields. -/
theorem and_opMask (w : CommandWord) : w &&& 0xFF0000000000#48 = packWord (opField w) 0 0 := by
  refine BitVec.eq_of_getLsbD_eq fun i hi => ?_
  rw [BitVec.getLsbD_and, show (0xFF0000000000#48 : CommandWord) = packWord (BitVec.allOnes 8) 0 0 from rfl,
    getLsbD_packWord_op, getLsbD_packWord_op, opField, BitVec.getLsbD_extractLsb', BitVec.getLsbD_allOnes]
  by_cases h : 40 ≤ i
  · simp [h, show 40 + (i - 40) = i by omega, show i - 40 < 8 by omega]
  · simp [h]

/-- A word meets a row's match value exactly when its `op` field is the row's. -/
theorem and_opMask_eq_iff (w : CommandWord) (op : BitVec 8) :
    w &&& 0xFF0000000000#48 = packWord op 0 0 ↔ opField w = op := by
  rw [and_opMask]
  exact ⟨fun h => by simpa using congrArg opField h, fun h => by rw [h]⟩

/-- A row of the opcode map by mask and match, from the decoder's answer on the row's `op` (`hrow`): the converse is
that what a word decodes to has the word's `op`. -/
theorem matches_iff_decode {w : CommandWord} {i : Instr} (op : BitVec 8) (hop : opcode i = op)
    (hrow : opField w = op → decode w = .ok i) :
    w &&& 0xFF0000000000#48 = packWord op 0 0 ↔ decode w = .ok i :=
  (and_opMask_eq_iff w op).trans ⟨hrow, fun h => (opcode_of_decode h).symm.trans hop⟩

/-! ### The decoder on each command row of R73 -/

section
variable {w : CommandWord}

theorem decode_of_op_sequenceIn (h : opField w = 0x00) : decode w = .ok (.sequenceIn (cyclesField w)) := by
  simp [decode, h]
theorem decode_of_op_sequenceInParity (h : opField w = 0x01) :
    decode w = .ok (.sequenceInParity (cyclesField w)) := by
  simp [decode, h]
theorem decode_of_op_sequenceOut (h : opField w = 0x02) :
    decode w = .ok (.sequenceOut (valueField w) (cyclesField w)) := by
  simp [decode, h]
theorem decode_of_op_sequenceOutParity (h : opField w = 0x03) :
    decode w = .ok (.sequenceOutParity (valueField w) (cyclesField w)) := by
  simp [decode, h]
theorem decode_of_op_init (h : opField w = 0x04) : decode w = .ok .init := by
  simp [decode, h]
theorem decode_of_op_setDivisor (h : opField w = 0x05) : decode w = .ok (.setDivisor (valueField w)) := by
  simp [decode, h]

end

/-! ### What the command port turns away -/

/-- The commands are the instructions of `op` 0x00 to 0x05 (R73, R75). -/
theorem isCommand_eq_opcode_le (i : Instr) : i.isCommand = decide ((opcode i).toNat ≤ 0x05) := by
  cases i <;> rfl

/-- The command port turns away every `op` above 0x05: it is no row, or a micro-op's (R75). -/
theorem decodeCommand_error_of_op_gt {w : CommandWord} (h : 0x05 < (opField w).toNat) :
    ∃ e, decodeCommand w = .error e := by
  cases hd : decode w with
  | error e => exact ⟨e, by simp only [decodeCommand, hd]⟩
  | ok i =>
    have hmicro : i.isCommand = false := by
      rw [isCommand_eq_opcode_le, opcode_of_decode hd]
      exact decide_eq_false (by omega)
    exact ⟨.microOpOnCommandPort (opField w), by simp [decodeCommand, hd, hmicro]⟩

end Sys2Proof

namespace Sys2Proof.Machine

/-- Outside a faulted session a word whose `op` is no command raises the fatal (R176 steps 1 and 2). -/
theorem rejectOp_of_not_faulted {s : State} (h : s.session.faulted = false) :
    rejectOp s = raiseFatal .illegalOp s := by
  simp [rejectOp, h]

/-- The step on a word that the command port turns away: it is accepted, then rejected. -/
theorem step_of_rejected_command {s : State} {w : CommandWord} {rest : List Input} {e : DecodeError}
    (hc : s.cfg.wf = true) (hb : s.busy = false) (hi : s.inputs = .command w :: rest)
    (hd : decodeCommand w = .error e) : step s = .next (rejectOp (accept w rest s)) := by
  simp [step, fetch, nextInput, hc, hi, hb, hd]

end Sys2Proof.Machine
end

section
/-! The statements of the encoding family. -/

open Sys2Proof Sys2Proof.Machine

/-- Settles O2: the mask leaves the `op` field alone, and the decoder answers by that field. -/
theorem wordDecodesToTheRowItMatches : Obligations.WordDecodesToTheRowItMatches := by
  intro w
  exact ⟨matches_iff_decode 0x00 rfl decode_of_op_sequenceIn,
    matches_iff_decode 0x01 rfl decode_of_op_sequenceInParity,
    matches_iff_decode 0x02 rfl decode_of_op_sequenceOut,
    matches_iff_decode 0x03 rfl decode_of_op_sequenceOutParity,
    matches_iff_decode 0x04 rfl decode_of_op_init,
    matches_iff_decode 0x05 rfl decode_of_op_setDivisor⟩

/-- Settles O13: the word is accepted and rejected in one step, and `raiseFatal` writes the latch and nothing else that
the statement names. -/
theorem illegalOpIsFatal : Obligations.IllegalOpIsFatal := by
  intro s w rest hc hb hf hi hop
  obtain ⟨e, hd⟩ := decodeCommand_error_of_op_gt hop
  refine ⟨raiseFatal .illegalOp (accept w rest s), ?_, ?_⟩
  · rw [step_of_rejected_command hc hb hi hd, rejectOp_of_not_faulted (by simpa using hf)]
  · simp [SameTraces]

end

section
/-! SUPPORT. The two micro-ops of the Direction Controller outside a faulted session (spec 41_direction_controller.md
R111, R112): their rows in the decoder, what `exec` answers, and the reconfiguration a direction call makes. -/

namespace Sys2Proof

theorem decode_of_op_drive {w : CommandWord} (h : opField w = 0x14) : decode w = .ok .drive := by
  simp [decode, h]

theorem decode_of_op_sense {w : CommandWord} (h : opField w = 0x15) : decode w = .ok .sense := by
  simp [decode, h]

end Sys2Proof

namespace Sys2Proof.Machine

/-! ### The reconfiguration of the pin -/

/-- In the mode it asks for, a direction call is a no-op (R110). -/
@[simp] theorem pinEvents_self (d : Dir) : pinEvents d d = [] := if_pos rfl

/-- From the other mode, a direction call reports one switch of the pin. -/
theorem pinEvents_of_ne {was now : Dir} (h : was ≠ now) : pinEvents was now = [.reconfPin now] := if_neg h

/-! ### `drive()` and `sense()` as instructions: they cannot raise and cannot hang -/

theorem exec_drive_of_not_faulted {s : State} (h : s.session.faulted = false) :
    exec .drive s = .next (finish .unit (drive s)) := by
  rw [exec, execDrive, unlessFaulted_of_not h]

theorem exec_sense_of_not_faulted {s : State} (h : s.session.faulted = false) :
    exec .sense s = .next (finish .unit (sense s)) := by
  rw [exec, execSense, unlessFaulted_of_not h]

/-- No cycle and no shift, one micro-op: the frame of R111 in both modes. -/
theorem finish_drive_completed (r : Reply) (s : State) : Completed s (finish r (drive s)) 0 0 1 := by
  rw [drive_eq]
  constructor <;> simp

/-- No cycle and no shift, one micro-op: the frame of R112 in both modes. -/
theorem finish_sense_completed (r : Reply) (s : State) : Completed s (finish r (sense s)) 0 0 1 := by
  rw [sense_eq]
  constructor <;> simp

end Sys2Proof.Machine
end

section
/-! The statements of the Direction Controller's family. -/

open Sys2Proof Sys2Proof.Machine

/-- Settles O31: every clause is a field of the closed form `drive_eq`; only the pin and the config trace depend on the
mode `drive()` is called in. -/
theorem driveSwitchesTheLineToOutput : Obligations.DriveSwitchesTheLineToOutput := by
  refine ⟨fun _ => decode_of_op_drive, fun s hf => ⟨_, exec_drive_of_not_faulted hf, ?_⟩⟩
  have hdone := finish_drive_completed .unit s
  rw [drive_eq] at hdone ⊢
  exact ⟨rfl, fun fromSense => by simp [fromSense, pinEvents_of_ne], fun inDrive => by simp [inDrive],
    rfl, rfl, rfl, rfl, rfl, hdone⟩

/-- Settles O32: every clause is a field of the closed form `sense_eq`; only the pin and the config trace depend on the
mode `sense()` is called in. -/
theorem senseSwitchesTheLineToInput : Obligations.SenseSwitchesTheLineToInput := by
  refine ⟨fun _ => decode_of_op_sense, fun s hf => ⟨_, exec_sense_of_not_faulted hf, ?_⟩⟩
  have hdone := finish_sense_completed .unit s
  rw [sense_eq] at hdone ⊢
  exact ⟨rfl, fun fromDrive => by simp [fromDrive, pinEvents_of_ne], fun inSense => by simp [inSense],
    rfl, rfl, rfl, rfl, rfl, hdone⟩

end

section
/-! SUPPORT. What a command that meets its preconditions (spec 60_exceptions.md R176 steps 4 and 5) does when it ends:
it raises no fatal, it clocks the cycles of its row in R215, and it leaves the carry flag that R145 gives. -/

namespace Sys2Proof.Machine

/-- The rows of R145 that complete: a command with the count it takes and the carry it needs. -/
inductive MeetsPreconditions (s : State) : Instr → Prop where
  | sequenceIn : MeetsPreconditions s (.sequenceIn 3)
  | sequenceInParity (carried : s.session.carryValid = true) : MeetsPreconditions s (.sequenceInParity 32)
  | sequenceOut (v : Word) {n : Nat} (legal : n ∈ outCycles) : MeetsPreconditions s (.sequenceOut v n)
  | sequenceOutParity (v : Word) : MeetsPreconditions s (.sequenceOutParity v 32)
  | init : MeetsPreconditions s .init
  | setDivisor (v : Word) : MeetsPreconditions s (.setDivisor v)

/-- `CARRY_VALID` after a completed call, from its value before (the table of R145); a micro-op leaves it (R36). -/
def carryValidAfter (carryValid : Bool) : Instr → Bool
  | .sequenceIn _ => true
  | .sequenceInParity _ => false
  | .sequenceOut _ _ => false
  | .sequenceOutParity _ _ => false
  | .init => false
  | .setDivisor _ => carryValid
  | .shiftIn _ => carryValid
  | .shiftOut _ _ => carryValid
  | .drain => carryValid
  | .setDiv _ => carryValid
  | .drive => carryValid
  | .sense => carryValid

/-! ### The work before the shifts -/

/-- No call clocks a cycle before its shifts begin (R111, R112, R94, R95, R152). -/
@[simp] theorem prepared_wire (i : Instr) (s : State) : (prepared i s).wire = s.wire := by
  cases i <;> simp [prepared, sense_eq, drive_eq, drain_eq] <;> rfl

/-- No call touches the fatal latch before its shifts begin (R172). -/
@[simp] theorem prepared_faulted (i : Instr) (s : State) :
    (prepared i s).session.faulted = s.session.faulted := by
  cases i <;> simp [prepared, sense_eq, drive_eq, drain_eq] <;> rfl

/-- Only `init` touches the carry flag before a commit (R152). -/
theorem prepared_carryValid {i : Instr} (s : State) (hi : i ≠ .init) :
    (prepared i s).session.carryValid = s.session.carryValid := by
  cases i <;> simp [prepared, sense_eq, drive_eq, drain_eq] at hi ⊢ <;> rfl

/-! ### A command that meets its preconditions raises no fatal -/

/-- The end of a command keeps the fatal latch if none of its shifts raises a fatal and its commit does not write it. -/
theorem settle_keeps_faulted {α : Type} {m : Dir} {s t : State} {p : Progress α} {commit : α → State → State}
    (h : Host.Outcome.next (φ := Fault) (ρ := Refusal) (settle p commit) = .next t)
    (ht : AdapterTouched m s p.state) (hf : ∀ c u, p ≠ .fatal c u)
    (hcommit : ∀ a u, (commit a u).session.faulted = u.session.faulted) :
    t.session.faulted = s.session.faulted := by
  obtain ⟨u, hu, h⟩ := settle_ran h ht hf
  have huf : u.session.faulted = s.session.faulted := by rw [hu.session]
  obtain ⟨a, rfl⟩ | rfl := h
  · rw [hcommit, huf]
  · rw [hang_session, huf]

theorem not_faulted_of_meetsPreconditions {i : Instr} {s t : State} (hs : s.canRun)
    (hi : MeetsPreconditions s i) (h : exec i s = .next t) : t.session.faulted = false := by
  have ⟨hwf, hf, _⟩ := hs
  have ok := Cfg.ok hwf
  have hsense : (sense s).cfg = s.cfg := by rw [sense_eq]
  have hdrive : (drive (drain s)).cfg = s.cfg := by rw [drive_eq, drain_eq]
  rw [← hf, ← prepared_faulted i s]
  cases hi with
  | sequenceIn =>
    rw [exec, execSequenceIn, whenBound_of_canRun hs, if_pos rfl] at h
    have ht := shiftIn_touched (ackCycles s.session.carryValid) (sense s)
    exact settle_keeps_faulted h ht.1 (fun c u hp => (ht.2 c u hp).2.2 (hsense ▸ ok.ack _)) fun _ _ => rfl
  | sequenceInParity carried =>
    rw [exec, execSequenceInParity, whenBound_of_canRun hs, if_pos rfl, if_pos carried] at h
    have ht := readChunks_touched s.cfg.inParityChunks 0 0 (sense s)
    exact settle_keeps_faulted h ht.1 (ht.2 (hsense ▸ ok.inWidths)) fun _ _ => rfl
  | @sequenceOut v n legal =>
    rw [exec, execSequenceOut, whenBound_of_canRun hs, if_pos legal] at h
    have ht := writeShifts_touched (outShifts v 0 (s.cfg.outChunks n)) (drive (drain s))
    exact settle_keeps_faulted h ht.1
      (ht.2 fun x hx => hdrive ▸ ok.outWidths n legal _ (count_of_mem_outShifts hx)) fun _ _ => rfl
  | sequenceOutParity v =>
    rw [exec, execSequenceOutParity, whenBound_of_canRun hs, if_pos rfl] at h
    have ht := writeShifts_touched (parityShifts s.cfg v) (drive (drain s))
    exact settle_keeps_faulted h ht.1
      (ht.2 fun x hx => (count_of_mem_parityShifts hx).symm ▸ hdrive ▸ ok.eight) fun _ _ => rfl
  | init =>
    rw [exec, execInit, unlessFaulted_of_not hf] at h
    obtain rfl := Host.Outcome.next.inj h
    rfl
  | setDivisor v =>
    rw [exec, execSetDivisor, whenBound_of_canRun hs] at h
    obtain rfl := Host.Outcome.next.inj h
    rfl

/-! ### The cycles of a phase -/

/-- Each shift of a phase puts as many bits on the wire as its count (R92, R93). -/
theorem phaseBits_length (i : Instr) (s : State) : (phaseBits i s).length = (phaseCounts i s).sum := by
  simp [phaseBits, phaseCounts, List.length_flatMap]

/-- The counts of a phase add up to the row of R215: the chunk lists by the conditions of R7, the other phases as
written. -/
theorem phaseCounts_sum {i : Instr} {s : State} (hc : s.cfg.wf = true) (hi : MeetsPreconditions s i) :
    (phaseCounts i s).sum = physicalCycles s.session.carryValid i := by
  have ok := Cfg.ok hc
  cases hi with
  | sequenceIn => simp [phaseCounts, phaseIn, phaseOut, physicalCycles, ackCycles]
  | sequenceInParity _ => simpa [phaseCounts, phaseIn, phaseOut, physicalCycles] using ok.inSum
  | sequenceOut v legal => simpa [phaseCounts, phaseIn, phaseOut, physicalCycles] using ok.outSum _ legal
  | sequenceOutParity v => simp [phaseCounts, phaseIn, phaseOut, physicalCycles, parityShifts]
  | init => rfl
  | setDivisor v => rfl

/-! ### The flag a commit leaves -/

/-- A commit writes the flag of R145, or, for `init`, keeps the one its preparation has written. -/
theorem carryValid_of_commits {i : Instr} {s u t : State}
    (hu : u.session.carryValid = (prepared i s).session.carryValid) (h : Commits s.session.carryValid i u t) :
    t.session.carryValid = carryValidAfter s.session.carryValid i := by
  cases i with
  | sequenceIn n =>
    obtain ⟨_, rfl⟩ := h
    rfl
  | sequenceInParity n =>
    obtain ⟨_, rfl⟩ := h
    rfl
  | sequenceOut _ _ | sequenceOutParity _ _ =>
    obtain rfl := h
    rfl
  | init =>
    obtain rfl := h
    exact hu
  | shiftIn n =>
    obtain ⟨_, rfl⟩ := h
    exact hu
  | setDivisor _ | shiftOut _ _ | drain | setDiv _ | drive | sense =>
    obtain rfl := h
    exact hu.trans (prepared_carryValid s nofun)

/-- A call that ends without a fatal has run its phase whole and committed: the other end of `exec_ended` hangs. -/
theorem ran_of_not_faulted_of_idle {i : Instr} {s t : State} (h : exec i s = .next t)
    (hf : t.session.faulted = false) (hb : t.busy = false) :
    ∃ u, ShiftsRan (phaseMode i) (phaseBits i s) (phaseCounts i s) (phaseOps i s) (prepared i s) u
      ∧ Commits s.session.carryValid i u t := by
  obtain ⟨u, hran | ⟨-, rfl⟩⟩ := exec_ended h hf
  · exact ⟨u, hran⟩
  · simp at hb

/-- A completed command, row by row of R145: the cycles it has clocked and the carry flag it leaves. -/
theorem cycles_and_carryValid_of_completed {i : Instr} {s t : State} (hs : s.canRun) (hb : t.busy = false)
    (hi : MeetsPreconditions s i) (h : exec i s = .next t) :
    t.wire.length = s.wire.length + physicalCycles s.session.carryValid i
      ∧ t.session.carryValid = carryValidAfter s.session.carryValid i := by
  obtain ⟨u, ran, commits⟩ := ran_of_not_faulted_of_idle h (not_faulted_of_meetsPreconditions hs hi h) hb
  refine ⟨?_, carryValid_of_commits (by rw [ran.session]) commits⟩
  rw [(commits_kept commits).wire, ran.wire, prepared_wire, List.length_append, cyclesOf_length, phaseBits_length,
    phaseCounts_sum hs.1 hi]

/-- Without a carry `sequence_in_parity(32)` raises the fatal before its first micro-op (R174). -/
theorem exec_sequenceInParity_without_carry {s : State} (hs : s.canRun) (hcv : s.session.carryValid = false) :
    exec (.sequenceInParity 32) s = .next (raiseFatal .carry s) := by
  rw [exec, execSequenceInParity, whenBound_of_canRun hs, if_pos rfl, hcv, if_neg Bool.false_ne_true]

end Sys2Proof.Machine
end

section
/-! The statement of the Sequence Engine's family. -/

open Sys2Proof Sys2Proof.Machine

/-- Settles O46: the row without a carry is a fatal that changes the latch alone, every other row is a completed
command. -/
theorem carryStateMachine : Obligations.CarryStateMachine := by
  intro s t v n hs hb
  have completed {i : Instr} := cycles_and_carryValid_of_completed (i := i) hs hb
  refine ⟨completed .sequenceIn, fun h hcv => ?_, fun h hcv => completed (.sequenceInParity hcv) h,
    fun hn => completed (.sequenceOut v hn), completed (.sequenceOutParity v), completed .init,
    completed (.setDivisor v)⟩
  rw [exec_sequenceInParity_without_carry hs hcv] at h
  obtain rfl := Host.Outcome.next.inj h
  exact ⟨rfl, rfl, rfl, hcv⟩

end

section
/-! SUPPORT. `set_divisor` outside a faulted session (spec 43_debug_port_binding.md R154), bound and not. -/

namespace Sys2Proof.Machine

/-! ### The dispatcher's check of `BOUND` (R176 step 3) -/

theorem whenBound_of_bound {s : State} (hf : s.session.faulted = false) (hb : s.session.bound = true)
    (body : State → Host.Outcome State Fault Refusal) : whenBound s body = body s := by
  rw [whenBound, unlessFaulted_of_not hf, if_pos hb]

theorem whenBound_of_not_bound {s : State} (hf : s.session.faulted = false) (hb : s.session.bound = false)
    (body : State → Host.Outcome State Fault Refusal) : whenBound s body = .next (raiseFatal .notBound s) := by
  rw [whenBound, unlessFaulted_of_not hf, hb, if_neg Bool.false_ne_true]

/-- A fatal that no micro-op raised: the latch is written, and nothing was called (R172). -/
theorem raiseFatal_trapped (c : Cause) (s : State) : Trapped s (raiseFatal c s) c [] where
  session := rfl
  traces := ⟨rfl, (List.append_nil s.calls).symm, rfl⟩
  hardware := ⟨rfl, rfl, rfl⟩
  reply := rfl
  completed := by constructor <;> simp

/-! ### `set_divisor` as an instruction -/

theorem exec_setDivisor_of_bound {s : State} (hf : s.session.faulted = false) (hb : s.session.bound = true)
    (v : Word) : exec (.setDivisor v) s = .next (finish .unit (setDiv v s)) := by
  rw [exec, execSetDivisor, whenBound_of_bound hf hb]

theorem exec_setDivisor_of_not_bound {s : State} (hf : s.session.faulted = false) (hb : s.session.bound = false)
    (v : Word) : exec (.setDivisor v) s = .next (raiseFatal .notBound s) := by
  rw [exec, execSetDivisor, whenBound_of_not_bound hf hb]

/-- No cycle and no shift, one micro-op: the frame of R95. -/
theorem finish_setDiv_completed (r : Reply) (v : Word) (s : State) : Completed s (finish r (setDiv v s)) 0 0 1 := by
  rw [setDiv_eq]
  constructor <;> simp

end Sys2Proof.Machine
end

section
/-! The statement of the debug port binding's family. -/

open Sys2Proof Sys2Proof.Machine

/-- Settles O56: bound, the command is the one micro-op `set_div`, whose closed form `setDiv_eq` has every clause as a
field; not bound, the dispatcher raises the fatal before it. -/
theorem setDivisorWritesTheDivisorOnly : Obligations.SetDivisorWritesTheDivisorOnly := by
  refine ⟨fun _ => decode_of_op_setDivisor, fun s v hf => ⟨fun hb => ?_, fun hb => ?_⟩⟩
  · refine ⟨_, exec_setDivisor_of_bound hf hb v, ?_⟩
    have hdone := finish_setDiv_completed .unit v s
    rw [setDiv_eq] at hdone ⊢
    exact ⟨rfl, rfl, rfl, rfl, rfl, rfl, rfl, rfl, hdone⟩
  · exact ⟨_, exec_setDivisor_of_not_bound hf hb v, raiseFatal_trapped .notBound s⟩

end

section
/-! SUPPORT. The fatals of the exceptions family (spec 60_exceptions.md R172 to R174): what a call that ends in one has
done, and the illegal counts of the four primitives. -/

namespace Sys2Proof.Machine

/-! ### A call that ends in a fatal has raised it before any work (R172, R176) -/

/-- A call that ran and then committed or hangs has not written the fatal latch. -/
theorem faulted_of_ran {i : Instr} {s u t : State} (hu : AdapterTouched (phaseMode i) (prepared i s) u)
    (h : Commits s.session.carryValid i u t ∨ t = hang u) : t.session.faulted = s.session.faulted := by
  have huf : u.session.faulted = s.session.faulted := by rw [hu.session, prepared_faulted]
  obtain h | rfl := h
  · rw [(commits_kept h).faulted, huf]
  · rw [hang_session, huf]

/-- Of the ends of `exec_cases`, a call outside a faulted session that ends with the latch set can only have the one
that raises the fatal. -/
theorem raised_of_faulted {i : Instr} {s t : State} (hc : s.cfg.wf = true) (hf : s.session.faulted = false)
    (h : exec i s = .next t) (ht : t.session.faulted = true) :
    ∃ c, Raises i s c ∧ t = raiseFatal c (called i s) := by
  obtain ⟨hfaulted, -⟩ | ⟨-, raised⟩ | ⟨-, u, hu, ended, -⟩ := exec_cases hc h
  · rw [hf] at hfaulted
    cases hfaulted
  · exact raised
  · have kept := faulted_of_ran hu (ended.imp_right And.left)
    rw [ht, hf] at kept
    cases kept

/-- A command issues no micro-op before it raises a fatal. -/
theorem called_of_isCommand {i : Instr} (hi : i.isCommand = true) (s : State) : called i s = s := if_pos hi

/-! ### The counts of the primitives (R173, R176 step 4) -/

section
variable {s : State} {n : Nat}

theorem exec_sequenceIn_illegal_count (hs : s.canRun) (hn : n ≠ 3) :
    exec (.sequenceIn n) s = .next (raiseFatal .cycles s) := by
  rw [exec, execSequenceIn, whenBound_of_canRun hs, if_neg hn]

theorem exec_sequenceInParity_illegal_count (hs : s.canRun) (hn : n ≠ 32) :
    exec (.sequenceInParity n) s = .next (raiseFatal .cycles s) := by
  rw [exec, execSequenceInParity, whenBound_of_canRun hs, if_neg hn]

theorem exec_sequenceOut_illegal_count (hs : s.canRun) (hn : n ∉ outCycles) (v : Word) :
    exec (.sequenceOut v n) s = .next (raiseFatal .cycles s) := by
  rw [exec, execSequenceOut, whenBound_of_canRun hs, if_neg hn]

theorem exec_sequenceOutParity_illegal_count (hs : s.canRun) (hn : n ≠ 32) (v : Word) :
    exec (.sequenceOutParity v n) s = .next (raiseFatal .cycles s) := by
  rw [exec, execSequenceOutParity, whenBound_of_canRun hs, if_neg hn]

end

theorem not_mem_outCycles {n : Nat} (h : n ≠ 8 ∧ n ≠ 12 ∧ n ≠ 16 ∧ n ≠ 32) : n ∉ outCycles := by
  simpa [outCycles] using h

end Sys2Proof.Machine
end

section
/-! The statements of the exceptions family. -/

open Sys2Proof Sys2Proof.Machine

/-- Settles O17: the command raised the fatal in the state it started in, and `raiseFatal` writes the latch and nothing
else that the statement names. -/
theorem fatalChangesOnlyTheFatalLatch : Obligations.FatalChangesOnlyTheFatalLatch := by
  intro i s t hi hc hf h ht
  obtain ⟨c, raises, rfl⟩ := raised_of_faulted hc hf h ht
  rw [called_of_isCommand hi]
  exact ⟨raises.ne_noFatal, rfl, rfl, ⟨rfl, rfl, rfl⟩, rfl, rfl, rfl, rfl, rfl⟩

/-- Settles O18: each count is looked at before the carry and before the first micro-op. -/
theorem illegalCycleCountIsFatal : Obligations.IllegalCycleCountIsFatal := by
  intro s v n hs
  have trapped := raiseFatal_trapped .cycles s
  exact ⟨fun hn => ⟨_, exec_sequenceIn_illegal_count hs hn, trapped⟩,
    fun hn => ⟨_, exec_sequenceInParity_illegal_count hs hn, trapped⟩,
    fun hn => ⟨_, exec_sequenceOut_illegal_count hs (not_mem_outCycles hn) v, trapped⟩,
    fun hn => ⟨_, exec_sequenceOutParity_illegal_count hs hn v, trapped⟩⟩

/-- Settles O19: the carry is looked at before the first micro-op; the other way, `Raises` says which call has that
cause. -/
theorem parityReadWithoutCarryIsFatal : Obligations.ParityReadWithoutCarryIsFatal := by
  refine ⟨fun s hs hcv => ⟨_, exec_sequenceInParity_without_carry hs hcv, raiseFatal_trapped .carry s⟩, ?_⟩
  intro i s t hc hf h ht hcause
  obtain ⟨c, raises, rfl⟩ := raised_of_faulted hc hf h ht
  obtain rfl : c = .carry := hcause
  exact raises

end

section
/-! SUPPORT. The decoder on each micro-op row (spec 30_encoding.md R74), what each port accepts in terms of `decode`
(R75), and the encoder undone (R80). -/

namespace Sys2Proof

/-! ### The decoder on the micro-op rows of R74 -/

section
variable {w : CommandWord}

theorem decode_of_op_shiftIn (h : opField w = 0x10) : decode w = .ok (.shiftIn (cyclesField w)) := by
  simp [decode, h]
theorem decode_of_op_shiftOut (h : opField w = 0x11) :
    decode w = .ok (.shiftOut (valueField w) (cyclesField w)) := by
  simp [decode, h]
theorem decode_of_op_drain (h : opField w = 0x12) : decode w = .ok .drain := by
  simp [decode, h]
theorem decode_of_op_setDiv (h : opField w = 0x13) : decode w = .ok (.setDiv (valueField w)) := by
  simp [decode, h]

end

/-! ### The ports -/

/-- The command port hands on what the decoder gives it, if that is a command (R75). -/
theorem decodeCommand_eq_ok_iff {w : CommandWord} {i : Instr} :
    decodeCommand w = .ok i ↔ decode w = .ok i ∧ i.isCommand = true := by
  unfold decodeCommand
  cases decode w with
  | error e => simp
  | ok j =>
    by_cases hj : j.isCommand = true
    · simp only [hj, if_true, Except.ok.injEq]
      exact ⟨fun h => ⟨h, h ▸ hj⟩, And.left⟩
    · simp only [hj, Bool.false_eq_true, if_false, reduceCtorEq, false_iff, Except.ok.injEq]
      rintro ⟨rfl, hi⟩
      exact hj hi

/-- The inner interface hands on what the decoder gives it, if that is a micro-op (R74). -/
theorem decodeMicroOp_eq_ok_iff {w : CommandWord} {i : Instr} :
    decodeMicroOp w = .ok i ↔ decode w = .ok i ∧ i.isCommand = false := by
  unfold decodeMicroOp
  cases decode w with
  | error e => simp
  | ok j =>
    by_cases hj : j.isCommand = true
    · simp only [hj, if_true, reduceCtorEq, false_iff, Except.ok.injEq]
      rintro ⟨rfl, hi⟩
      exact Bool.noConfusion (hj.symm.trans hi)
    · simp only [hj, Bool.false_eq_true, if_false, Except.ok.injEq]
      exact ⟨fun h => ⟨h, h ▸ Bool.eq_false_of_not_eq_true hj⟩, And.left⟩

/-- The twelve rows of R73 and R74 lie in two ranges of `op`. -/
theorem opcode_range (i : Instr) :
    (i.isCommand = true ∧ (opcode i).toNat ≤ 0x05)
      ∨ (i.isCommand = false ∧ 0x10 ≤ (opcode i).toNat ∧ (opcode i).toNat ≤ 0x15) := by
  cases i <;> simp [opcode, Instr.isCommand]

/-- Every `op` of the two ranges is a row. -/
theorem exists_decode_of_range {w : CommandWord}
    (h : (opField w).toNat ≤ 0x05 ∨ 0x10 ≤ (opField w).toNat ∧ (opField w).toNat ≤ 0x15) :
    ∃ i, decode w = .ok i := by
  unfold decode
  generalize (opField w).toNat = n at h
  obtain h | ⟨_, h⟩ := h <;> interval_cases n <;> exact ⟨_, rfl⟩

/-- The command port accepts the range of the commands (R75). -/
theorem exists_decodeCommand_iff (w : CommandWord) :
    (∃ i, decodeCommand w = .ok i) ↔ (opField w).toNat ≤ 0x05 := by
  simp only [decodeCommand_eq_ok_iff]
  constructor
  · rintro ⟨i, hd, hi⟩
    simpa [isCommand_eq_opcode_le, opcode_of_decode hd] using hi
  · intro h
    obtain ⟨i, hd⟩ := exists_decode_of_range (.inl h)
    exact ⟨i, hd, by simpa [isCommand_eq_opcode_le, opcode_of_decode hd] using h⟩

/-- The inner interface accepts the range of the micro-ops (R74). -/
theorem exists_decodeMicroOp_iff (w : CommandWord) :
    (∃ i, decodeMicroOp w = .ok i) ↔ 0x10 ≤ (opField w).toNat ∧ (opField w).toNat ≤ 0x15 := by
  simp only [decodeMicroOp_eq_ok_iff]
  constructor
  · rintro ⟨i, hd, hi⟩
    rw [← opcode_of_decode hd]
    exact (opcode_range i).elim (fun h => by simp [hi] at h) And.right
  · intro h
    obtain ⟨i, hd⟩ := exists_decode_of_range (.inr h)
    refine ⟨i, hd, ?_⟩
    rw [isCommand_eq_opcode_le, opcode_of_decode hd]
    exact decide_eq_false (by omega)

/-! ### The encoder -/

/-- A count of an encodable instruction survives the 8-bit field. -/
theorem cyclesField_packWord_of_lt {n : Nat} (hn : n < 256) (op : BitVec 8) (value : Word) :
    cyclesField (packWord op n value) = n := by
  rw [cyclesField_packWord, Nat.mod_eq_of_lt hn]

/-- The decoder undoes the encoder on every encodable instruction (R71, R72). -/
theorem decode_encode {i : Instr} (hi : i.wf = true) : decode (encode i) = .ok i := by
  have op := opField_packWord
  cases i with
  | sequenceIn n =>
    rw [encode, decode_of_op_sequenceIn (op ..), cyclesField_packWord_of_lt (by simpa [Instr.wf] using hi)]
  | sequenceInParity n =>
    rw [encode, decode_of_op_sequenceInParity (op ..), cyclesField_packWord_of_lt (by simpa [Instr.wf] using hi)]
  | sequenceOut v n =>
    rw [encode, decode_of_op_sequenceOut (op ..), cyclesField_packWord_of_lt (by simpa [Instr.wf] using hi),
      valueField_packWord]
  | sequenceOutParity v n =>
    rw [encode, decode_of_op_sequenceOutParity (op ..), cyclesField_packWord_of_lt (by simpa [Instr.wf] using hi),
      valueField_packWord]
  | init => exact decode_of_op_init (op ..)
  | setDivisor v => rw [encode, decode_of_op_setDivisor (op ..), valueField_packWord]
  | shiftIn n =>
    rw [encode, decode_of_op_shiftIn (op ..), cyclesField_packWord_of_lt (by simpa [Instr.wf] using hi)]
  | shiftOut b n =>
    rw [encode, decode_of_op_shiftOut (op ..), cyclesField_packWord_of_lt (by simpa [Instr.wf] using hi),
      valueField_packWord]
  | drain => exact decode_of_op_drain (op ..)
  | setDiv v => rw [encode, decode_of_op_setDiv (op ..), valueField_packWord]
  | drive => exact decode_of_op_drive (op ..)
  | sense => exact decode_of_op_sense (op ..)

end Sys2Proof

namespace Sys2Proof.Machine

/-- The word whose `op` is a slot of the capability table decodes to the call of that entry (R150, R50). -/
theorem decode_packWord_of_slot {k n : Nat} {p : Primitive} (hp : capabilityTable[k]? = some p) (hn : n < 256)
    (value : Word) : decode (packWord (BitVec.ofNat 8 k) n value) = .ok (p.call value n) := by
  have op := opField_packWord
  match k with
  | 0 =>
    cases hp
    exact (decode_of_op_sequenceIn (op ..)).trans (by rw [cyclesField_packWord_of_lt hn]; rfl)
  | 1 =>
    cases hp
    exact (decode_of_op_sequenceInParity (op ..)).trans (by rw [cyclesField_packWord_of_lt hn]; rfl)
  | 2 =>
    cases hp
    exact (decode_of_op_sequenceOut (op ..)).trans (by rw [cyclesField_packWord_of_lt hn, valueField_packWord]; rfl)
  | 3 =>
    cases hp
    exact (decode_of_op_sequenceOutParity (op ..)).trans
      (by rw [cyclesField_packWord_of_lt hn, valueField_packWord]; rfl)
  | k + 4 => cases hp

theorem call_isCommand (p : Primitive) (value : Word) (n : Nat) : (p.call value n).isCommand = true := by
  cases p <;> rfl

end Sys2Proof.Machine
end

section
/-! The statements about the encoding. -/

open Sys2Proof Sys2Proof.Machine

/-- Settles O1: the decoder undoes the encoder, and each port hands on the instructions of its own kind. -/
theorem encodedWordDecodesToItsInstruction : Obligations.EncodedWordDecodesToItsInstruction := by
  intro i hi
  have hd := decode_encode hi
  exact ⟨hd, fun hc => decodeCommand_eq_ok_iff.mpr ⟨hd, hc⟩, fun hm => decodeMicroOp_eq_ok_iff.mpr ⟨hd, hm⟩⟩

/-- Settles O3: as for the command rows, the mask leaves the `op` field and the decoder answers by it. -/
theorem microOpWordDecodesToTheRowItMatches : Obligations.MicroOpWordDecodesToTheRowItMatches := by
  intro w
  exact ⟨matches_iff_decode 0x10 rfl decode_of_op_shiftIn, matches_iff_decode 0x11 rfl decode_of_op_shiftOut,
    matches_iff_decode 0x12 rfl decode_of_op_drain, matches_iff_decode 0x13 rfl decode_of_op_setDiv,
    matches_iff_decode 0x14 rfl decode_of_op_drive, matches_iff_decode 0x15 rfl decode_of_op_sense⟩

/-- Settles O4: the rows of the decoder fill the two ranges, one for each port. -/
theorem portsAcceptTheirOwnOpcodesOnly : Obligations.PortsAcceptTheirOwnOpcodesOnly := fun w =>
  ⟨exists_decodeCommand_iff w, exists_decodeMicroOp_iff w⟩

/-- Settles O5: each row reads only the fields it names. -/
theorem ignoredFieldsNeverMatter : Obligations.IgnoredFieldsNeverMatter := by
  intro w w' hop h
  simp only [List.mem_cons, List.not_mem_nil, or_false] at h
  obtain ⟨h | h | h, hn⟩ | ⟨h | h, hv⟩ | h | h | h | h := h <;> have h' := hop ▸ h
  · rw [decode_of_op_sequenceIn h, decode_of_op_sequenceIn h', hn]
  · rw [decode_of_op_sequenceInParity h, decode_of_op_sequenceInParity h', hn]
  · rw [decode_of_op_shiftIn h, decode_of_op_shiftIn h', hn]
  · rw [decode_of_op_setDivisor h, decode_of_op_setDivisor h', hv]
  · rw [decode_of_op_setDiv h, decode_of_op_setDiv h', hv]
  · rw [decode_of_op_init h, decode_of_op_init h']
  · rw [decode_of_op_drain h, decode_of_op_drain h']
  · rw [decode_of_op_drive h, decode_of_op_drive h']
  · rw [decode_of_op_sense h, decode_of_op_sense h']

/-- Settles O6: seven fixed words, evaluated. -/
theorem wordsOfTheSpecDecode : Obligations.WordsOfTheSpecDecode := by
  unfold Obligations.WordsOfTheSpecDecode
  decide

/-- Settles O7: the four entries of the table stand in the order of the first four rows of R73. -/
theorem capabilitySlotIsTheOpcode : Obligations.CapabilitySlotIsTheOpcode := by
  intro k n value p hn hp
  exact decodeCommand_eq_ok_iff.mpr ⟨decode_packWord_of_slot hp hn value, call_isCommand p value n⟩

end

section
/-! SUPPORT. The invariant of the machine, operation by operation: at reset, under a fatal and a refusal, through the
work before a call's shifts, its shifts, and its last writes (spec 10_state.md R21 to R28, R32). -/

namespace Sys2Proof.Machine

/-- `Inv` but for its clause on a hang: what holds while a call runs too, when BUSY is 1 in a faulted session
as well. -/
def Steady (s : State) : Prop := Inv { s with busy := false }

theorem Inv.steady {s : State} (h : Inv s) : Steady s := { h with hung := nofun }

theorem Steady.inv {s : State} (h : Steady s) (hung : s.busy = true → s.session.faulted = false) : Inv s :=
  { h with hung := hung }

theorem Steady.inv_of_idle {s : State} (h : Steady s) (hb : s.busy = false) : Inv s :=
  h.inv fun hb' => Bool.noConfusion (hb.symm.trans hb')

/-! ### Reset -/

/-- The reset values of R35 meet the invariant, whatever the carry is. -/
theorem inv_of_reset_values {t : State} {c : Bool} (hc : t.cfg.wf = true) (hs : t.session = Session.reset t.cfg c)
    (hp : t.pin = .input t.cfg.pinSenseMode) (hw : t.shifterWidth = BitVec.ofNat 5 t.cfg.widthReset)
    (hslots : t.slots = []) (hcalls : t.calls = []) : Inv t where
  cfg := hc
  pin := by rw [hp, hs]; rfl
  shifter := by rw [hw, hs]; rfl
  width := by
    have ok := Cfg.ok hc
    rw [hs, Session.reset, ok.toNat_of_width ok.widthReset]
    exact ok.widthReset
  clkdiv := by rw [hs]; exact divisorOf_divisorOf t.cfg t.cfg.clkdivReset
  noFatal _ := by rw [hs]; exact ⟨rfl, rfl⟩
  fatal h := by rw [hs] at h; cases h
  table := by rw [hslots, hs]; rfl
  carry h := by rw [hs] at h; cases h
  hung _ := by rw [hs]; rfl
  calls := by rw [hcalls]; exact nofun

theorem inv_resetWith {cfg : Cfg} (hc : cfg.wf = true) : Inv (State.resetWith cfg) :=
  inv_of_reset_values hc rfl rfl rfl rfl rfl

theorem inv_resetInput {s : State} (hc : s.cfg.wf = true) (rest : List Input) : Inv (resetInput rest s) :=
  inv_of_reset_values hc rfl rfl rfl rfl rfl

/-! ### Operations that touch none of what the invariant speaks of, and the fatal latch -/

section
variable {s t : State}

/-- The invariant speaks of six fields; of the calls it asks only that the new ones are micro-ops. -/
theorem Steady.congr (h : Steady s) (hcfg : t.cfg = s.cfg) (hses : t.session = s.session) (hpin : t.pin = s.pin)
    (hw : t.shifterWidth = s.shifterWidth) (hslots : t.slots = s.slots)
    (hcalls : ∀ i ∈ t.calls, i ∈ s.calls ∨ i.isCommand = false) : Steady t := by
  have hc (i) (hi : i ∈ t.calls) : i.isCommand = false := (hcalls i hi).elim (h.calls i) id
  exact
  { cfg := by simpa only [hcfg] using h.cfg
    pin := by simpa only [hcfg, hses, hpin] using h.pin
    shifter := by simpa only [hses, hw] using h.shifter
    width := by simpa only [hcfg, hses] using h.width
    clkdiv := by simpa only [hcfg, hses] using h.clkdiv
    noFatal := by simpa only [hses] using h.noFatal
    fatal := by simpa only [hses] using h.fatal
    table := by simpa only [hses, hslots] using h.table
    carry := by simpa only [hses] using h.carry
    hung := nofun
    calls := hc }

theorem Steady.finish (h : Steady s) (r : Reply) : Steady (finish r s) := h.congr rfl rfl rfl rfl rfl fun _ => .inl

theorem Steady.hang (h : Steady s) : Steady (hang s) := h.congr rfl rfl rfl rfl rfl fun _ => .inl

theorem Steady.accept (h : Steady s) (w : CommandWord) (rest : List Input) : Steady (accept w rest s) :=
  h.congr rfl rfl rfl rfl rfl fun _ => .inl

theorem Steady.issue (h : Steady s) {op : Instr} (ho : op.isCommand = false) : Steady (issue op s) :=
  h.congr rfl rfl rfl rfl rfl fun i hi =>
    (List.mem_append.mp hi).imp_right fun (hi : i ∈ [op]) => by rwa [List.mem_singleton.mp hi]

theorem Steady.called (h : Steady s) (i : Instr) : Steady (called i s) := by
  unfold Machine.called
  split
  · exact h
  · exact h.issue (Bool.eq_false_of_not_eq_true ‹_›)

/-- Taking a fatal writes the latch only, and its cause is one (R172, R28). -/
theorem Steady.raiseFatal (h : Steady s) {c : Cause} (hc : c ≠ .noFatal) : Steady (raiseFatal c s) :=
  { h with
    noFatal := nofun
    fatal := fun _ => hc
    hung := nofun }

/-- A word whose `op` is no command leaves the invariant, and the block idle. -/
theorem Steady.rejectOp (h : Steady s) : Inv (rejectOp s) := by
  unfold Machine.rejectOp
  split
  · exact (h.finish _).inv_of_idle rfl
  · exact (h.raiseFatal (c := .illegalOp) nofun).inv_of_idle rfl

/-! ### The work before the shifts -/

theorem Steady.sense (h : Steady s) : Steady (sense s) := by
  have hpin : (if s.session.dir = .sense then s.pin else .input s.cfg.pinSenseMode) = pinOf s.cfg .sense := by
    split
    · rename_i hd
      simpa only [hd] using h.pin
    · rfl
  rw [sense_eq]
  exact { h with pin := hpin, calls := (h.issue (op := .sense) rfl).calls }

theorem Steady.drive (h : Steady s) : Steady (drive s) := by
  have hpin : (if s.session.dir = .drive then s.pin else .pushPull) = pinOf s.cfg .drive := by
    split
    · rename_i hd
      simpa only [hd] using h.pin
    · rfl
  rw [drive_eq]
  exact { h with pin := hpin, calls := (h.issue (op := .drive) rfl).calls }

theorem Steady.drain (h : Steady s) : Steady (drain s) := { h with calls := (h.issue (op := .drain) rfl).calls }

theorem Steady.setDiv (h : Steady s) (v : Word) : Steady (setDiv v s) :=
  { h with
    clkdiv := divisorOf_divisorOf s.cfg v
    calls := (h.issue (op := .setDiv (divisorOf s.cfg v)) rfl).calls }

theorem Steady.pinToSense (h : Steady s) : Steady (pinToSense s) := { h with pin := rfl }

theorem Steady.widthToReset (h : Steady s) : Steady (widthToReset s) :=
  have ok := Cfg.ok h.cfg
  { h with
    shifter := rfl
    width := (ok.toNat_of_width ok.widthReset).symm ▸ ok.widthReset }

theorem Steady.bindTable (h : Steady s) : Steady (bindTable s) := { h with table := rfl, carry := nofun }

/-- What a call does before its shifts keeps the invariant, on any state. -/
theorem Steady.prepared (h : Steady s) (i : Instr) : Steady (prepared i s) := by
  cases i with
  | sequenceIn n | sequenceInParity n | sense => exact h.sense
  | sequenceOut v n | sequenceOutParity v n => exact h.drain.drive
  | init =>
    have hrx : Steady (clobberRx s) := h.congr rfl rfl rfl rfl rfl fun _ => .inl
    exact (hrx.pinToSense.widthToReset.setDiv _).bindTable
  | setDivisor v | setDiv v => exact h.setDiv v
  | shiftIn n | shiftOut b n => exact h
  | drain => exact h.drain
  | drive => exact h.drive

/-! ### The shifts -/

/-- However a run of shifts ends, the shifter is left at a width of the configuration, and WIDTH with it (R32, R91). -/
theorem Steady.touched (h : Steady s) {m : Dir} (ht : AdapterTouched m s t) : Steady t := by
  have hw : t.shifterWidth = t.session.width ∧ t.session.width.toNat ∈ s.cfg.widths := by
    obtain ⟨hw, hp⟩ | ⟨n, hn, hw, hp⟩ := ht.width
    · rw [hw, hp]
      exact ⟨h.shifter, h.width⟩
    · rw [hw, hp, (Cfg.ok h.cfg).toNat_of_width hn]
      exact ⟨rfl, hn⟩
  have hs : Steady { s with
      session := { s.session with width := t.session.width }, shifterWidth := t.shifterWidth } :=
    { h with shifter := hw.1, width := hw.2 }
  refine hs.congr ht.cfg ht.session ht.pin rfl ht.slots fun i hi => ?_
  obtain ⟨ops, hops, micro⟩ := ht.calls
  exact (List.mem_append.mp (hops ▸ hi)).imp_right (micro i)

/-! ### The last writes -/

/-- The last writes of a call are to the carry, RESULT and PERR; a valid carry is of a bound session (R24). -/
theorem Steady.withResults (h : Steady s) {cv : Bool} (hcv : cv = true → s.session.bound = true) (c : Bool)
    (result : Word) (perr : Bool) :
    Steady { s with session := { s.session with carry := c, carryValid := cv, result := result, perr := perr } } :=
  { h with carry := hcv }

theorem Steady.commits (h : Steady s) {cv : Bool} {i : Instr}
    (hb : i.isCommand = true → i ≠ .init → s.session.bound = true) (hc : Commits cv i s t) : Steady t := by
  cases i with
  | sequenceIn n =>
    obtain ⟨r, rfl⟩ := hc
    exact (h.withResults (fun _ => hb rfl nofun) ..).finish _
  | sequenceInParity n =>
    obtain ⟨x, rfl⟩ := hc
    exact (h.withResults (cv := false) nofun ..).finish _
  | sequenceOut v n | sequenceOutParity v n =>
    obtain rfl := hc
    exact (h.withResults (cv := false) nofun ..).finish _
  | shiftIn n =>
    obtain ⟨r, rfl⟩ := hc
    exact h.finish _
  | init | setDivisor v | shiftOut b n | drain | setDiv v | drive | sense =>
    obtain rfl := hc
    exact h.finish _

end

/-! ### A call -/

/-- Only `init` writes BOUND before the shifts, and it sets it. -/
theorem prepared_bound {i : Instr} {s : State} (h : s.session.bound = true) :
    (prepared i s).session.bound = true := by
  cases i <;> simp [prepared, sense_eq, drive_eq, drain_eq, setDiv_eq, h]

/-- From a state that meets the invariant but for BUSY, a call that answers a next state leaves one that meets it. -/
theorem Steady.exec {i : Instr} {s t : State} (h : Steady s) (hx : exec i s = .next t) : Inv t := by
  have hwf : s.cfg.wf = true := h.cfg
  obtain ⟨-, rfl⟩ | ⟨-, c, raises, rfl⟩ | ⟨adm, u, hu, ended, -⟩ := exec_cases hwf hx
  · exact (h.finish _).inv_of_idle rfl
  · exact ((h.called i).raiseFatal raises.ne_noFatal).inv_of_idle rfl
  · have hsteady := (h.prepared i).touched hu
    obtain commits | ⟨rfl, -⟩ := ended
    · have hb (hi : i.isCommand = true) (hne : i ≠ .init) : u.session.bound = true := by
        rw [hu.session]
        exact prepared_bound (adm.bound hi hne)
      exact (hsteady.commits hb commits).inv_of_idle (commits_kept commits).busy
    · refine hsteady.hang.inv fun _ => ?_
      rw [hang_session, hu.session]
      exact (prepared_faulted i s).trans adm.notFaulted

end Sys2Proof.Machine
end

section
/-! The statements about the invariant. -/

open Sys2Proof Sys2Proof.Machine

/-- Settles O58: each way a step can go on keeps the invariant; inside a call it holds but for BUSY. -/
theorem everyStepKeepsInv : Obligations.EveryStepKeepsInv := by
  intro s t h hstep
  obtain ⟨-, rfl⟩ | ⟨rest, -, rfl⟩ | ⟨w, rest, e, -, -, -, rfl⟩ | ⟨w, rest, i, -, -, hx⟩ := step_cases h.cfg hstep
  · exact h
  · exact inv_resetInput h.cfg rest
  · exact (h.steady.accept w rest).rejectOp
  · exact (h.steady.accept w rest).exec hx

/-- Settles O57: the reset values meet each clause. -/
theorem invHoldsAtReset : Obligations.InvHoldsAtReset :=
  ⟨inv_resetWith Config.cfg_wf, fun _ => inv_resetWith⟩

end

section
/-! SUPPORT. The step by what is presented (spec 10_state.md R29, R30), and what holds of every step in a faulted
session (60_exceptions.md R177). -/

namespace Sys2Proof.Machine

/-! ### The step by what is presented -/

section
variable {s : State} {w : CommandWord} {rest : List Input} {i : Instr}

theorem step_of_nothing_presented (hc : s.cfg.wf = true) (hi : s.inputs = []) : step s = .next s := by
  simp only [step, fetch, nextInput, hc, hi, if_true]

theorem step_of_reset (hc : s.cfg.wf = true) (hi : s.inputs = .reset :: rest) :
    step s = .next (resetInput rest s) := by
  simp only [step, fetch, nextInput, hc, hi, if_true]

theorem step_of_command (hc : s.cfg.wf = true) (hb : s.busy = false) (hi : s.inputs = .command w :: rest)
    (hd : decodeCommand w = .ok i) : step s = exec i (accept w rest s) := by
  simp [step, fetch, nextInput, hc, hi, hb, hd]

theorem step_of_microOp (hc : s.cfg.wf = true) (hb : s.busy = false) (hi : s.inputs = .microOp w :: rest)
    (hd : decodeMicroOp w = .ok i) : step s = exec i (accept w rest s) := by
  simp [step, fetch, nextInput, hc, hi, hb, hd]

theorem step_of_rejected_microOp {e : DecodeError} (hc : s.cfg.wf = true) (hb : s.busy = false)
    (hi : s.inputs = .microOp w :: rest) (hd : decodeMicroOp w = .error e) : step s = .fault (.notAMicroOp w) := by
  simp [step, fetch, nextInput, hc, hi, hb, hd]

theorem step_of_ill_formed (hc : s.cfg.wf = false) : step s = .refused .illFormedConfiguration := by
  simp [step, fetch, hc]

theorem step_of_word_while_busy (hc : s.cfg.wf = true) (hb : s.busy = true)
    (hi : s.inputs = .command w :: rest ∨ s.inputs = .microOp w :: rest) :
    step s = .refused .presentedWhileBusy := by
  obtain hi | hi := hi <;> simp [step, fetch, nextInput, hc, hi, hb]

end

/-! ### A faulted session -/

section
variable {s : State}

theorem unlessFaulted_of_faulted (hf : s.session.faulted = true)
    (body : State → Host.Outcome State Fault Refusal) : unlessFaulted s body = .next (refuseFaulted s) := if_pos hf

/-- Step 1 of R176 stands before every arm: nothing runs in a faulted session. -/
theorem exec_of_faulted (hf : s.session.faulted = true) (i : Instr) : exec i s = .next (refuseFaulted s) := by
  cases i <;> simp only [exec, execSequenceIn, execSequenceInParity, execSequenceOut, execSequenceOutParity, execInit,
    execSetDivisor, execShiftIn, execShiftOut, execDrain, execSetDiv, execDrive, execSense, whenBound,
    unlessFaulted_of_faulted hf]

theorem rejectOp_of_faulted (hf : s.session.faulted = true) : rejectOp s = refuseFaulted s := if_pos hf

/-- What a refusal keeps, and that it reports the fatal again (R177). -/
theorem refuseFaulted_completed (s : State) : Completed s (refuseFaulted s) 0 0 0 := by constructor <;> simp

/-- A command word, legal or not, is accepted and refused (R177). -/
theorem step_of_command_of_faulted {w : CommandWord} {rest : List Input} (hc : s.cfg.wf = true)
    (hf : s.session.faulted = true) (hb : s.busy = false) (hi : s.inputs = .command w :: rest) :
    step s = .next (refuseFaulted (accept w rest s)) := by
  have hf' : (accept w rest s).session.faulted = true := hf
  cases hd : decodeCommand w with
  | error e => rw [step_of_rejected_command hc hb hi hd, rejectOp_of_faulted hf']
  | ok i => rw [step_of_command hc hb hi hd, exec_of_faulted hf']

/-- Any step of a faulted session but reset waits or refuses. -/
theorem step_cases_of_faulted {t : State} (hc : s.cfg.wf = true) (hf : s.session.faulted = true)
    (hr : ∀ rest, s.inputs ≠ .reset :: rest) (h : step s = .next t) :
    t = s ∨ ∃ w rest, t = refuseFaulted (accept w rest s) := by
  obtain ⟨-, h⟩ | ⟨rest, hi, -⟩ | ⟨w, rest, e, -, -, -, rfl⟩ | ⟨w, rest, i, -, -, hx⟩ := step_cases hc h
  · exact .inl h
  · exact absurd hi (hr rest)
  · exact .inr ⟨w, rest, rejectOp_of_faulted hf⟩
  · rw [exec_of_faulted (show (accept w rest s).session.faulted = true from hf)] at hx
    exact .inr ⟨w, rest, (Host.Outcome.next.inj hx).symm⟩

end
end Sys2Proof.Machine
end

section
/-! The statements about the step, reset and a faulted session. -/

open Sys2Proof Sys2Proof.Machine

/-- Settles O8: on either port the accepted state is the one the statement writes out. -/
theorem stepRunsTheDecodedInstruction : Obligations.StepRunsTheDecodedInstruction := by
  rintro s w rest i hc hb (⟨hi, hd⟩ | ⟨hi, hd⟩)
  · exact step_of_command hc hb hi hd
  · exact step_of_microOp hc hb hi hd

/-- Settles O9. -/
theorem nothingPresentedChangesNothing : Obligations.NothingPresentedChangesNothing := fun _ hc hi =>
  step_of_nothing_presented hc hi

/-- Settles O10: the configuration is looked at before the input. -/
theorem illFormedConfigurationIsRefused : Obligations.IllFormedConfigurationIsRefused := fun _ hc =>
  step_of_ill_formed hc

/-- Settles O11: BUSY is looked at before the word is decoded. -/
theorem wordPresentedWhileBusyIsRefused : Obligations.WordPresentedWhileBusyIsRefused := fun _ _ _ hc hb hi =>
  step_of_word_while_busy hc hb hi

/-- Settles O12: the inner interface decodes no word outside its range of `op`. -/
theorem unknownMicroOpWordFaults : Obligations.UnknownMicroOpWordFaults := by
  intro s w rest hc hb hi hop
  cases hd : decodeMicroOp w with
  | ok i => exact absurd ((exists_decodeMicroOp_iff w).mp ⟨i, hd⟩) hop
  | error e => exact step_of_rejected_microOp hc hb hi hd

/-- Settles O14: the reset state is written out; only the divisor is computed, cut to 32 of its 32 bits. -/
theorem resetStateHasTheResetValues : Obligations.ResetStateHasTheResetValues := by
  have hdiv : divisorOf Config.cfg Config.clkdivReset = Config.clkdivReset := divisorOf_of_bits rfl _
  refine ⟨?_, rfl, rfl, rfl, rfl, rfl, rfl⟩
  conv_rhs => rw [← hdiv]
  rfl

/-- Settles O15: the reset input is taken before BUSY or the fatal latch is looked at. -/
theorem resetInputRestoresTheResetState : Obligations.ResetInputRestoresTheResetState := by
  intro s rest hc hi
  exact ⟨_, step_of_reset hc hi, rfl, rfl, rfl, rfl, rfl, rfl, rfl, rfl, rfl, rfl, rfl, rfl, rfl, rfl⟩

/-- Settles O16: STATUS is put together from its three fields, low bits last. -/
theorem statusLayout : Obligations.StatusLayout := by
  intro s
  have append {n m : Nat} (x : BitVec n) (y : BitVec m) (i : Nat) :
      (x ++ y).getLsbD i = if i < m then y.getLsbD i else x.getLsbD (i - m) := BitVec.getLsbD_append
  refine ⟨?_, ?_, BitVec.eq_of_getLsbD_eq fun i hi => ?_, rfl⟩
  · rw [State.status, append]
    simp
  · rw [State.status, append, append]
    simp
  · rw [BitVec.getLsbD_extractLsb', State.status, append, append, if_neg (by omega), if_neg (by omega)]
    simp [hi]

/-- Settles O23: every arm of `exec` looks at the latch first. -/
theorem faultedSessionRefusesEveryInstruction : Obligations.FaultedSessionRefusesEveryInstruction := by
  intro i s hf
  exact ⟨_, exec_of_faulted hf i, rfl, ⟨rfl, rfl, rfl⟩, rfl, rfl, rfl, rfl, rfl, refuseFaulted_completed s⟩

/-- Settles O24: a step of a faulted session waits or refuses, and only the reset values clear the latch. -/
theorem fatalLastsUntilReset : Obligations.FatalLastsUntilReset := by
  intro s hc hf
  refine ⟨fun t hr h => ?_, fun w rest hb hi => ?_, fun rest hi => ?_⟩
  · obtain rfl | ⟨w, rest, rfl⟩ := step_cases_of_faulted hc hf hr h <;> exact ⟨rfl, ⟨rfl, rfl, rfl⟩, rfl, rfl⟩
  · exact ⟨_, step_of_command_of_faulted hc hf hb hi, rfl, ⟨rfl, rfl, rfl⟩, rfl, rfl, rfl, rfl⟩
  · exact ⟨_, step_of_reset hc hi, rfl, rfl, rfl⟩

end

section
/-! SUPPORT. The fatals `NOT_BOUND` and `WIDTH` (spec 60_exceptions.md R175, R176; 40_bit_shifter_adapter.md R96), the
shifts that are refused (R99), and the micro-ops without a shift. -/

namespace Sys2Proof.Machine

section
variable {s : State}

/-- Step 3 of R176 stands before the count and the carry in every command but `init`. -/
theorem exec_of_not_bound {i : Instr} (hi : i.isCommand = true) (hne : i ≠ .init) (hf : s.session.faulted = false)
    (hb : s.session.bound = false) : exec i s = .next (raiseFatal .notBound s) := by
  cases i with
  | sequenceIn n | sequenceInParity n | sequenceOut v n | sequenceOutParity v n | setDivisor v =>
    simp only [exec, execSequenceIn, execSequenceInParity, execSequenceOut, execSequenceOutParity, execSetDivisor,
      whenBound_of_not_bound hf hb]
  | init => exact absurd rfl hne
  | shiftIn n | shiftOut b n | drain | setDiv v | drive | sense => cases hi

/-- A fatal that a micro-op raised: it has been called, and the latch is written (R55, R172). -/
theorem raiseFatal_issue_trapped (c : Cause) (op : Instr) (s : State) :
    Trapped s (raiseFatal c (issue op s)) c [op] where
  session := rfl
  traces := ⟨rfl, rfl, rfl⟩
  hardware := ⟨rfl, rfl, rfl⟩
  reply := rfl
  completed := by constructor <;> simp

/-! ### The shifts by their count and direction (R96, R99) -/

theorem exec_shiftIn_unsupported {n : Nat} (hf : s.session.faulted = false) (hn : n ∉ s.cfg.widths) :
    exec (.shiftIn n) s = .next (raiseFatal .width (issue (.shiftIn n) s)) := by
  rw [exec, execShiftIn, unlessFaulted_of_not hf, if_neg fun h => hn h.1, shiftIn, if_neg hn]
  rfl

theorem exec_shiftOut_unsupported {n : Nat} (b : Word) (hf : s.session.faulted = false) (hn : n ∉ s.cfg.widths) :
    exec (.shiftOut b n) s = .next (raiseFatal .width (issue (.shiftOut b n) s)) := by
  rw [exec, execShiftOut, unlessFaulted_of_not hf, if_neg fun h => hn h.1, shiftOut, if_neg hn]
  rfl

theorem exec_shiftIn_driving {n : Nat} (hf : s.session.faulted = false) (hn : n ∈ s.cfg.widths)
    (hd : s.session.dir = .drive) : exec (.shiftIn n) s = .refused .shiftInWhileDriving := by
  rw [exec, execShiftIn, unlessFaulted_of_not hf, if_pos ⟨hn, hd⟩]

theorem exec_shiftOut_sensing {n : Nat} (b : Word) (hf : s.session.faulted = false) (hn : n ∈ s.cfg.widths)
    (hd : s.session.dir = .sense) : exec (.shiftOut b n) s = .refused .shiftOutWhileSensing := by
  rw [exec, execShiftOut, unlessFaulted_of_not hf, if_pos ⟨hn, hd⟩]

theorem exec_shiftIn_sensing (n : Nat) (hf : s.session.faulted = false) (hd : s.session.dir = .sense) :
    exec (.shiftIn n) s = .next (settle (shiftIn n s) fun r t => finish (.bits r) t) := by
  rw [exec, execShiftIn, unlessFaulted_of_not hf, if_neg (by simp [hd])]

theorem exec_shiftOut_driving (b : Word) (n : Nat) (hf : s.session.faulted = false) (hd : s.session.dir = .drive) :
    exec (.shiftOut b n) s = .next (settle (shiftOut b n s) fun _ t => finish .unit t) := by
  rw [exec, execShiftOut, unlessFaulted_of_not hf, if_neg (by simp [hd])]

/-! ### The micro-ops without a shift, and `init` -/

theorem exec_drain_of_not_faulted (hf : s.session.faulted = false) :
    exec .drain s = .next (finish .unit (drain s)) := by
  rw [exec, execDrain, unlessFaulted_of_not hf]

theorem exec_setDiv_of_not_faulted (hf : s.session.faulted = false) (v : Word) :
    exec (.setDiv v) s = .next (finish .unit (setDiv v s)) := by
  rw [exec, execSetDiv, unlessFaulted_of_not hf]

theorem exec_init_of_not_faulted (hf : s.session.faulted = false) :
    exec .init s = .next (finish .unit (prepared .init s)) := by
  rw [exec, execInit, unlessFaulted_of_not hf]
  rfl

theorem finish_drain_completed (r : Reply) (s : State) : Completed s (finish r (drain s)) 0 0 1 := by
  rw [drain_eq]
  constructor <;> simp

/-! ### No other micro-op raises a fatal -/

/-- A micro-op that ends in a fatal is a shift whose count the shifter does not have. -/
theorem unsupported_of_faulted {i : Instr} {t : State} (hi : i.isCommand = false) (hf : s.session.faulted = false)
    (h : exec i s = .next t) (ht : t.session.faulted = true) :
    (∃ n, i = .shiftIn n ∧ n ∉ s.cfg.widths) ∨ ∃ b n, i = .shiftOut b n ∧ n ∉ s.cfg.widths := by
  have latched (hk : t.session.faulted = s.session.faulted) : False := by
    rw [ht, hf] at hk
    cases hk
  cases i with
  | sequenceIn n | sequenceInParity n | sequenceOut v n | sequenceOutParity v n | init | setDivisor v => cases hi
  | shiftIn n =>
    refine .inl ⟨n, rfl, fun hn => ?_⟩
    cases hd : s.session.dir with
    | drive => rw [exec_shiftIn_driving hf hn hd] at h; cases h
    | sense =>
      rw [exec_shiftIn_sensing n hf hd] at h
      have hs := shiftIn_touched n s
      exact latched (settle_keeps_faulted h hs.1 (fun c u hp => (hs.2 c u hp).2.2 hn) fun _ _ => rfl)
  | shiftOut b n =>
    refine .inr ⟨b, n, rfl, fun hn => ?_⟩
    cases hd : s.session.dir with
    | sense => rw [exec_shiftOut_sensing b hf hn hd] at h; cases h
    | drive =>
      rw [exec_shiftOut_driving b n hf hd] at h
      have hs := shiftOut_touched b n s
      exact latched (settle_keeps_faulted h hs.1 (fun c u hp => (hs.2 c u hp).2.2 hn) fun _ _ => rfl)
  | drain =>
    rw [exec_drain_of_not_faulted hf] at h
    obtain rfl := Host.Outcome.next.inj h
    exact (latched rfl).elim
  | setDiv v =>
    rw [exec_setDiv_of_not_faulted hf] at h
    obtain rfl := Host.Outcome.next.inj h
    exact (latched rfl).elim
  | drive =>
    rw [exec_drive_of_not_faulted hf, drive_eq] at h
    obtain rfl := Host.Outcome.next.inj h
    exact (latched rfl).elim
  | sense =>
    rw [exec_sense_of_not_faulted hf, sense_eq] at h
    obtain rfl := Host.Outcome.next.inj h
    exact (latched rfl).elim

end
end Sys2Proof.Machine
end

section
/-! The statements about the fatals of the dispatcher and the adapter, and about the calls without a shift. -/

open Sys2Proof Sys2Proof.Machine

/-- Settles O20: the dispatcher raises the fatal before the command's own checks. -/
theorem commandBeforeBringUpIsFatal : Obligations.CommandBeforeBringUpIsFatal := by
  intro i s hi hne hf hb
  exact ⟨_, exec_of_not_bound hi hne hf hb, raiseFatal_trapped .notBound s⟩

/-- Settles O21: the count is looked at before the direction, and no other micro-op writes the latch. -/
theorem unsupportedShiftCountIsFatal : Obligations.UnsupportedShiftCountIsFatal := by
  refine ⟨fun s b n hf hn => ⟨⟨_, exec_shiftIn_unsupported hf hn, raiseFatal_issue_trapped ..⟩,
    ⟨_, exec_shiftOut_unsupported b hf hn, raiseFatal_issue_trapped ..⟩⟩, fun i s t hi hf h ht => ?_⟩
  have unsupported := unsupported_of_faulted hi hf h ht
  refine ⟨unsupported, ?_⟩
  obtain ⟨n, rfl, hn⟩ | ⟨b, n, rfl, hn⟩ := unsupported
  · rw [exec_shiftIn_unsupported hf hn] at h
    obtain rfl := Host.Outcome.next.inj h
    exact raiseFatal_issue_trapped ..
  · rw [exec_shiftOut_unsupported b hf hn] at h
    obtain rfl := Host.Outcome.next.inj h
    exact raiseFatal_issue_trapped ..

/-- Settles O22: `Raises` gives the cause WIDTH to micro-ops alone. -/
theorem noCommandEndsInTheWidthFatal : Obligations.NoCommandEndsInTheWidthFatal := by
  refine ⟨Config.cfg_wf, fun i s t hi hc hf h ht hcause => ?_⟩
  obtain ⟨c, raises, rfl⟩ := raised_of_faulted hc hf h ht
  obtain rfl : c = .width := hcause
  exact Bool.noConfusion (hi.symm.trans raises)

/-- Settles O27: with a supported count the direction decides. -/
theorem shiftAgainstTheDirectionIsRefused : Obligations.ShiftAgainstTheDirectionIsRefused := fun _ b _ hf hn =>
  ⟨exec_shiftIn_driving hf hn, exec_shiftOut_sensing b hf hn⟩

/-- Settles O29: every clause is a field of `drain_eq`. -/
theorem drainEmptiesTheReceiveBuffer : Obligations.DrainEmptiesTheReceiveBuffer := by
  intro s hf
  exact ⟨_, exec_drain_of_not_faulted hf, rfl, rfl, rfl, rfl, rfl, rfl, rfl, rfl, finish_drain_completed ..⟩

/-- Settles O30: every clause is a field of `setDiv_eq`. -/
theorem setDivWritesTheDivisor : Obligations.SetDivWritesTheDivisor := by
  intro s v hf
  exact ⟨_, exec_setDiv_of_not_faulted hf v, rfl, rfl, rfl, rfl, rfl, rfl, rfl, rfl, finish_setDiv_completed ..⟩

/-- Settles O55: `init` is its three reconfigurations and the table, none of which looks at a flag. -/
theorem initBringsTheBlockUp : Obligations.InitBringsTheBlockUp := by
  intro s hf
  exact ⟨_, exec_init_of_not_faulted hf, rfl, by simp [prepared, setDiv_eq], rfl, rfl, rfl, rfl, rfl, rfl, rfl, rfl,
    rfl, rfl, rfl, rfl, rfl, rfl, rfl⟩

end

section
/-! SUPPORT. The shifts as instructions, when they become ready and when they hang (spec 40_bit_shifter_adapter.md R91
to R93, R97). -/

namespace Sys2Proof.Machine

/-! ### The frame of a call that ends -/

/-- A call whose work before its shifts completes `k` micro-ops, and whose shifts ran whole, is framed, whatever its
last writes to `S` are. -/
theorem ShiftsRan.completed {mode : Dir} {bits : List Bool} {ns : List Nat} {ops : List Instr} {s p u : State} {k : Nat}
    (ran : ShiftsRan mode bits ns ops p u) (hp : Completed s (finish .unit p) 0 0 k) (r : Reply) (x : Session) :
    Completed s (finish r { u with session := x }) (sampledBy mode bits) ns.length (ns.length + k) where
  idle := rfl
  cmd := ran.cmd.trans hp.cmd
  slots := ran.slots.trans hp.slots
  inputs := ran.inputs.trans hp.inputs
  upc := by
    have hupc : p.upc = s.upc + k := hp.upc
    show u.upc = s.upc + (ns.length + k)
    rw [ran.upc, hupc]
    omega
  target := ran.target.trans (congrArg _ hp.target)
  sampled := ran.sampled.trans (congrArg (· + _) hp.sampled)
  polled := ran.polled.trans (congrArg (· + _) hp.polled)
  shifts := ran.shifts.trans (congrArg _ hp.shifts)
  cfg := ran.cfg.trans hp.cfg

/-- A call with no work before its shifts. -/
theorem finish_completed (r : Reply) (s : State) : Completed s (finish r s) 0 0 0 := by constructor <;> simp

/-! ### A shift that becomes ready -/

theorem exec_shiftIn_ready {n : Nat} {s : State} (hf : s.session.faulted = false) (hd : s.session.dir = .sense)
    (hn : n ∈ s.cfg.widths) (hr : s.readyFor 1) :
    ∃ u, exec (.shiftIn n) s = .next (finish (.bits (bitsToWord (s.coming n))) u)
      ∧ ShiftsRan .sense (s.coming n) [n] [.shiftIn n] s u := by
  obtain ⟨u, hu, ran⟩ := shiftIn_ready hn (hr 0 Nat.one_pos)
  refine ⟨u, ?_, ran⟩
  rw [exec_shiftIn_sensing n hf hd, hu]
  rfl

theorem exec_shiftOut_ready {b : Word} {n : Nat} {s : State} (hf : s.session.faulted = false)
    (hd : s.session.dir = .drive) (hn : n ∈ s.cfg.widths) (hr : s.readyFor 1) :
    ∃ u, exec (.shiftOut b n) s = .next (finish .unit u)
      ∧ ShiftsRan .drive (lowBits b n) [n] [.shiftOut b n] s u := by
  obtain ⟨u, hu, ran⟩ := shiftOut_ready (b := b) hn (hr 0 Nat.one_pos)
  refine ⟨u, ?_, ran⟩
  rw [exec_shiftOut_driving b n hf hd, hu]
  rfl

/-! ### A shift that hangs -/

/-- What a hung shift of count `n` leaves: the width is its own, the micro-op has not ended, and the cycles it clocked
are on the wire (R97, R180, entry 31). -/
structure HungAt (mode : Dir) (bits : List Bool) (n : Nat) (op : Instr) (s u : State) : Prop where
  session : u.session = { s.session with width := BitVec.ofNat 5 n }
  upc : u.upc = s.upc
  wire : u.wire = s.wire ++ cyclesOf mode bits
  calls : u.calls = s.calls ++ [op]
  config : u.config = s.config ++ widthEvents s.session.width [n]

theorem shiftIn_never {n k : Nat} {s : State} (hn : n ∈ s.cfg.widths) (hr : s.readiness 0 = .never k) :
    ∃ u, shiftIn n s = .hung u ∧ HungAt .sense (s.coming (min k n)) n (.shiftIn n) s u := by
  have hc : (beginShift (.shiftIn n) n s).coming (min k n) = s.coming (min k n) :=
    coming_congr (beginShift_oracle _ _ _) _
  refine ⟨_, by simp only [shiftIn, hn, if_true, hr, sampleBits_eq, hc]; rfl, ?_⟩
  constructor <;> simp [beginShift_eq]

theorem shiftOut_never {b : Word} {n k : Nat} {s : State} (hn : n ∈ s.cfg.widths) (hr : s.readiness 0 = .never k) :
    ∃ u, shiftOut b n s = .hung u ∧ HungAt .drive (lowBits b (min k n)) n (.shiftOut b n) s u := by
  refine ⟨_, by simp only [shiftOut, hn, if_true, hr, presentBits_zero]; rfl, ?_⟩
  constructor <;> simp [beginShift_eq]

/-! ### The bits read, as a value -/

theorem getD_coming (s : State) (n i : Nat) : (s.coming n).getD i false = (decide (i < n) && s.oracle i) := by
  by_cases hi : i < n <;> simp [State.coming, hi]

/-- Bit `i` of what a read of `n` cycles returns is the i-th bit sampled (R92). -/
theorem getLsbD_bitsToWord_coming (s : State) {n : Nat} (hn : n ≤ 32) (i : Nat) :
    (bitsToWord (s.coming n)).getLsbD i = (decide (i < n) && s.oracle i) := by
  rw [getLsbD_bitsToWord, getD_coming]
  by_cases hi : i < n
  · simp [hi, show i < 32 by omega]
  · simp [hi]

/-- The same of the 33 bits of a parity read (R125). -/
theorem getLsbD_bitsToWide_coming (s : State) {i : Nat} (hi : i < 33) :
    (bitsToWide (s.coming 33)).getLsbD i = s.oracle i := by
  simp only [getLsbD_bitsToWide, getD_coming, hi, decide_true, Bool.true_and]

end Sys2Proof.Machine
end

section
/-! The statements about the shifts as instructions. -/

open Sys2Proof Sys2Proof.Machine

/-- Settles O25: the shift runs whole, and what it returns is the stream of the bits sampled. -/
theorem shiftInSamplesItsCount : Obligations.ShiftInSamplesItsCount := by
  intro s n hc hf hd hn hr
  obtain ⟨u, hx, ran⟩ := exec_shiftIn_ready hf hd hn hr
  refine ⟨_, bitsToWord (s.coming n), hx, rfl, getLsbD_bitsToWord_coming s ((Cfg.ok hc).le hn), ran.session, ran.wire,
    ran.calls, ran.config, ran.shifter, ran.pin, ?_⟩
  simpa [sampledBy] using ran.completed (finish_completed ..) _ u.session

/-- Settles O26: the shift runs whole; it samples nothing. -/
theorem shiftOutPresentsItsCount : Obligations.ShiftOutPresentsItsCount := by
  intro s b n _ hf hd hn hr
  obtain ⟨u, hx, ran⟩ := exec_shiftOut_ready hf hd hn hr
  exact ⟨_, hx, rfl, ran.session, ran.wire, ran.calls, ran.config, ran.shifter, ran.pin,
    ran.completed (finish_completed ..) _ u.session⟩

/-- Settles O28: the hung shift has been begun and has clocked the first cycles of its own. -/
theorem hungShiftClocksPartOfItsCycles : Obligations.HungShiftClocksPartOfItsCycles := by
  intro s b n k hf hn hr
  refine ⟨fun hd => ?_, fun hd => ?_⟩
  · obtain ⟨u, hu, hung⟩ := shiftIn_never hn hr
    refine ⟨hang u, ?_, rfl, rfl, hung.session, hung.upc, hung.wire, hung.calls, hung.config⟩
    rw [exec_shiftIn_sensing n hf hd, hu]
    rfl
  · obtain ⟨u, hu, hung⟩ := shiftOut_never (b := b) hn hr
    refine ⟨hang u, ?_, rfl, rfl, hung.session, hung.upc, hung.wire, hung.calls, hung.config⟩
    rw [exec_shiftOut_driving b n hf hd, hu]
    rfl

end

section
/-! SUPPORT. The reads of the Sequence Engine when their shifts become ready (spec 42_sequence_engine.md R121, R125). -/

namespace Sys2Proof.Machine

section
variable {s : State}

theorem sense_oracle (s : State) : (sense s).oracle = s.oracle := by
  rw [sense_eq]
  exact oracle_congr rfl rfl

theorem sense_coming (s : State) (n : Nat) : (sense s).coming n = s.coming n := coming_congr (sense_oracle s) n

theorem sense_readyFor {m : Nat} (h : s.readyFor m) : (sense s).readyFor m :=
  State.readyFor.after (k := 0) (by simpa using h) (by rw [sense_eq]; rfl) (by rw [sense_eq]; rfl)

/-- From `s` to `u` a read has turned the line to the target and run its shifts; its last writes are not made yet. -/
structure ReadFrom (ns : List Nat) (s u : State) : Prop where
  session : u.session = { s.session with dir := .sense, width := lastWidth s.session.width ns }
  wire : u.wire = s.wire ++ cyclesOf .sense (s.coming ns.sum)
  calls : u.calls = s.calls ++ .sense :: ns.map Instr.shiftIn
  config : u.config = s.config ++ pinEvents s.session.dir .sense ++ widthEvents s.session.width ns
  pin : u.pin = if s.session.dir = .sense then s.pin else .input s.cfg.pinSenseMode
  shifter : u.shifterWidth = lastPhysical s.session.width s.shifterWidth ns
  completed : ∀ (r : Reply) (x : Session),
    Completed s (finish r { u with session := x }) ns.sum ns.length (ns.length + 1)

theorem ShiftsRan.readFrom {ns : List Nat} {u : State}
    (ran : ShiftsRan .sense (s.coming ns.sum) ns (ns.map Instr.shiftIn) (sense s) u) : ReadFrom ns s u := by
  have hdone := ran.completed (finish_sense_completed .unit s)
  rw [sense_eq] at ran
  exact
  { session := ran.session
    wire := ran.wire
    calls := by simpa using ran.calls
    config := ran.config
    pin := ran.pin
    shifter := ran.shifter
    completed := by simpa [sampledBy] using hdone }

/-- `sequence_in(3)` whose shift becomes ready (R121). -/
theorem exec_sequenceIn_ready (hs : s.canRun) (hr : s.readyFor 1) :
    ∃ u, exec (.sequenceIn 3) s
        = .next (commitAck s.session.carryValid (bitsToWord (s.coming (ackCycles s.session.carryValid))) u)
      ∧ ReadFrom [ackCycles s.session.carryValid] s u := by
  have hn : ackCycles s.session.carryValid ∈ (sense s).cfg.widths := by
    rw [sense_eq]
    exact (Cfg.ok hs.1).ack _
  obtain ⟨u, hu, ran⟩ := shiftIn_ready hn (sense_readyFor hr 0 Nat.one_pos)
  rw [sense_coming] at hu ran
  refine ⟨u, ?_, ShiftsRan.readFrom (by simpa using ran)⟩
  rw [exec, execSequenceIn, whenBound_of_canRun hs, if_pos rfl, hu]
  rfl

/-- `sequence_in_parity(32)` with a valid carry whose shifts become ready (R125). -/
theorem exec_sequenceInParity_ready (hs : s.canRun) (hcv : s.session.carryValid = true)
    (hr : s.readyFor s.cfg.inParityChunks.length) :
    ∃ u, exec (.sequenceInParity 32) s = .next (commitData (bitsToWide (s.coming 33)) u)
      ∧ ReadFrom s.cfg.inParityChunks s u := by
  have ok := Cfg.ok hs.1
  have hw : ∀ w ∈ s.cfg.inParityChunks, w ∈ (sense s).cfg.widths ∧ w ≤ 32 := by
    rw [sense_eq]
    exact fun w hw => ⟨ok.inWidths w hw, ok.le (ok.inWidths w hw)⟩
  obtain ⟨u, hu, ran⟩ := readChunks_ready (old := []) hw (sense_readyFor hr)
  rw [sense_coming] at hu ran
  refine ⟨u, ?_, ran.readFrom⟩
  have hu : readChunks s.cfg.inParityChunks 0 0 (sense s) = .done (bitsToWide (s.coming 33)) u := by
    simpa [ok.inSum] using hu
  rw [exec, execSequenceInParity, whenBound_of_canRun hs, if_pos rfl, if_pos hcv, hu]
  rfl

/-! ### The fields of a read -/

/-- The ACK lies at the end of the read but for its last bit: the read of 5 cycles drops its first one (R121). -/
theorem getLsbD_ackOf (cv : Bool) (r : Word) {i : Nat} (hi : i < 3) :
    (ackOf cv r).getLsbD i = r.getLsbD (ackCycles cv - 4 + i) := by
  cases cv <;> simp only [ackOf, ackCycles, if_true, Bool.false_eq_true, if_false, BitVec.getLsbD_extractLsb', hi,
    decide_true, Bool.true_and, Nat.sub_self]

/-- The new carry is the last bit read (R121). -/
theorem ackCarry_eq (cv : Bool) (r : Word) : ackCarry cv r = r.getLsbD (ackCycles cv - 1) := by
  cases cv <;> rfl

/-- The effect of `sequence_in(3)` in both states of the carry flag (R121). -/
theorem ackRead_of_ready (hs : s.canRun) (hr : s.readyFor 1) {n : Nat} (hn : ackCycles s.session.carryValid = n) :
    ∃ t ack, exec (.sequenceIn 3) s = .next t ∧ t.reply = .ack ack
      ∧ t.session = { s.session with
          dir := .sense, width := BitVec.ofNat 5 n, carry := s.oracle (n - 1), carryValid := true
          result := ack.setWidth 32, perr := false }
      ∧ (∀ i < 3, ack.getLsbD i = s.oracle (n - 4 + i))
      ∧ t.wire = s.wire ++ cyclesOf .sense (s.coming n) ∧ t.calls = s.calls ++ [.sense, .shiftIn n]
      ∧ t.config = s.config ++ pinEvents s.session.dir .sense ++ widthEvents s.session.width [n]
      ∧ t.pin = (if s.session.dir = .sense then s.pin else .input s.cfg.pinSenseMode)
      ∧ t.shifterWidth = lastPhysical s.session.width s.shifterWidth [n] ∧ Completed s t n 1 2 := by
  obtain ⟨u, hx, read⟩ := exec_sequenceIn_ready hs hr
  rw [hn] at hx read
  have hle : n = 4 ∨ n = 5 := by
    rw [← hn]
    cases s.session.carryValid <;> simp [ackCycles]
  have bit (i) (hi : i < n) : (bitsToWord (s.coming n)).getLsbD i = s.oracle i := by
    rw [getLsbD_bitsToWord_coming s (by omega), decide_eq_true hi, Bool.true_and]
  refine ⟨_, _, hx, rfl, ?_, fun i hi => ?_, read.wire, read.calls, read.config, read.pin, read.shifter,
    read.completed _ _⟩
  · have hcarry : ackCarry s.session.carryValid (bitsToWord (s.coming n)) = s.oracle (n - 1) := by
      rw [ackCarry_eq, hn, bit _ (by omega)]
    simp [commitAck, read.session, lastWidth, hcarry]
  · rw [getLsbD_ackOf _ _ hi, hn, bit _ (by omega)]

theorem receivedParity_coming (s : State) : receivedParity (bitsToWide (s.coming 33)) = s.oracle 31 :=
  getLsbD_bitsToWide_coming s (by omega)

/-- The word a parity read puts together from the carry and the 33 bits it samples (R125). -/
def readWord (s : State) : Word := dataWord (bitsToWide (s.coming 33)) s.session.carry

@[simp] theorem getLsbD_readWord_zero (s : State) : (readWord s).getLsbD 0 = s.session.carry :=
  getLsbD_dataWord_zero ..

theorem getLsbD_readWord_succ (s : State) {i : Nat} (hi : i < 31) : (readWord s).getLsbD (i + 1) = s.oracle i := by
  rw [readWord, getLsbD_dataWord_succ _ _ _ hi, getLsbD_bitsToWide_coming s (by omega)]

/-- The last writes of a parity read, in terms of the state it started in (R125). -/
theorem commitData_of_readFrom {ns : List Nat} {u : State} (read : ReadFrom ns s u) :
    commitData (bitsToWide (s.coming 33)) u =
      finish (.data (readWord s) (parity32 (readWord s) != s.oracle 31))
        { u with
          session := { u.session with
            carryValid := false, result := readWord s, perr := parity32 (readWord s) != s.oracle 31 } } := by
  have hcarry : u.session.carry = s.session.carry := by rw [read.session]
  rw [commitData, hcarry, parityError, receivedParity_coming]
  rfl

end
end Sys2Proof.Machine
end

section
/-! The statements about the reads of the Sequence Engine. -/

open Sys2Proof Sys2Proof.Machine

/-- Settles O34: the read of 5 cycles. -/
theorem ackReadWithoutCarryTakesFiveCycles : Obligations.AckReadWithoutCarryTakesFiveCycles := by
  intro s hs hcv hr
  obtain ⟨t, ack, hx, hreply, hses, hack, rest⟩ := ackRead_of_ready hs hr (n := 5) (by rw [hcv]; rfl)
  exact ⟨t, ack, hx, hreply, hses, ⟨hack 0 (by omega), hack 1 (by omega), hack 2 (by omega)⟩, rest⟩

/-- Settles O35: the read of 4 cycles. -/
theorem ackReadWithCarryTakesFourCycles : Obligations.AckReadWithCarryTakesFourCycles := by
  intro s hs hcv hr
  obtain ⟨t, ack, hx, hreply, hses, hack, rest⟩ := ackRead_of_ready hs hr (n := 4) (by rw [hcv]; rfl)
  exact ⟨t, ack, hx, hreply, hses, ⟨hack 0 (by omega), hack 1 (by omega), hack 2 (by omega)⟩, rest⟩

/-- Settles O37: the chunks are one stream of 33 bits, whose first 31 follow the carry in the word. -/
theorem parityReadReturnsTheReassembledWord : Obligations.ParityReadReturnsTheReassembledWord := by
  intro s hs hcv hr
  obtain ⟨u, hx, read⟩ := exec_sequenceInParity_ready hs hcv hr
  rw [commitData_of_readFrom read] at hx
  have hsum := (Cfg.ok hs.1).inSum
  refine ⟨_, readWord s, hx, rfl, getLsbD_readWord_zero s, fun i hi => getLsbD_readWord_succ s hi, ?_,
    by simpa [hsum] using read.wire, read.calls, read.config, read.pin, read.shifter,
    by simpa [hsum] using read.completed _ _⟩
  rw [finish_session, read.session]

/-- Settles O38: the stream of bits read and the carry are those of the one state, whatever the chunks. -/
theorem parityReadDoesNotDependOnItsChunks : Obligations.ParityReadDoesNotDependOnItsChunks := by
  intro s cfg hs hc hcv hr hr'
  obtain ⟨u, hx, read⟩ := exec_sequenceInParity_ready hs hcv hr
  obtain ⟨u', hx', read'⟩ := exec_sequenceInParity_ready (s := { s with cfg := cfg }) ⟨hc, hs.2⟩ hcv hr'
  rw [commitData_of_readFrom read] at hx
  rw [commitData_of_readFrom read'] at hx'
  refine ⟨_, _, hx, hx', rfl, ?_, ?_, read'.calls⟩
  · have hwire := read.wire
    have hwire' := read'.wire
    rw [(Cfg.ok hs.1).inSum] at hwire
    rw [(Cfg.ok hc).inSum] at hwire'
    exact hwire'.trans hwire.symm
  · rw [finish_session, finish_session, read.session, read'.session]
    rfl

end

section
/-! SUPPORT. The bits an out-class call drives (spec 42_sequence_engine.md R130, R134, R140), and the two outputs when
their shifts become ready. -/

namespace Sys2Proof.Machine

/-! ### Parity as an exclusive or (R140) -/

/-- The exclusive or of a list of bits is the parity of its count of ones. -/
theorem foldr_xor_eq_odd (l : List Bool) : l.foldr xor false = decide ((l.filter id).length % 2 = 1) := by
  induction l with
  | nil => rfl
  | cons b l ih =>
    cases b
    · simpa using ih
    · rw [List.foldr_cons, ih]
      simp only [List.filter_cons, id, if_true, List.length_cons, Bool.true_xor, ← decide_not]
      exact decide_eq_decide.mpr (by omega)

theorem popCount_eq (v : Word) : popCount v = ((lowBits v 32).filter id).length := by
  rw [popCount, lowBits, List.filter_map, List.length_map]
  rfl

theorem parity32_eq_odd (v : Word) : parity32 v = decide (((lowBits v 32).filter id).length % 2 = 1) := by
  rw [parity32, popCount_eq]

/-- With its parity bit a word has an even number of ones. -/
theorem ones_with_parity_even (v : Word) : ((lowBits v 32 ++ [parity32 v]).filter id).length % 2 = 0 := by
  rw [List.filter_append, List.length_append, parity32_eq_odd]
  by_cases hodd : ((lowBits v 32).filter id).length % 2 = 1
  · simp only [hodd, decide_true, List.filter_cons, id, if_true, List.filter_nil, List.length_singleton]
    omega
  · simp only [hodd, decide_false, List.filter_cons, id, Bool.false_eq_true, if_false, List.filter_nil,
      List.length_nil]
    omega

/-! ### The bytes of `sequence_out_parity` (R134) -/

/-- The seven overhead bits in the order they go on the wire. -/
def padBits (pad : BitVec 7) : List Bool := (List.range 7).map fun i => pad.getLsbD i

theorem padBits_zero : padBits 0 = List.replicate 7 false := by decide

/-- The fifth byte puts the parity bit on the wire first, then the overhead bits. -/
theorem lowBits_parityByte (cfg : Cfg) (v : Word) :
    lowBits (parityByte cfg v) 8 = parity32 v :: padBits cfg.pad7 := by
  have bit (i : Nat) (hi : i < 8) : (parityByte cfg v).getLsbD i
      = if i = 0 then parity32 v else cfg.pad7.getLsbD (i - 1) := by
    have happ : (cfg.pad7 ++ BitVec.ofBool (parity32 v) : BitVec 8).getLsbD i = _ := BitVec.getLsbD_append
    rw [parityByte, BitVec.getLsbD_setWidth, happ]
    cases i with
    | zero => simp
    | succ i => simp [show i + 1 < 32 by omega]
  rw [lowBits, padBits, List.range_succ_eq_map, List.map_cons, List.map_map, bit 0 (by omega)]
  refine congrArg _ (List.map_congr_left fun i hi => ?_)
  exact bit (i + 1) (by have := List.mem_range.mp hi; omega)

/-- The 40 bits of the call: the word, its parity bit, the overhead bits (R134). -/
theorem bits_of_parityShifts (cfg : Cfg) (v : Word) :
    ((parityShifts cfg v).flatMap fun x => lowBits x.1 x.2) = lowBits v 32 ++ parity32 v :: padBits cfg.pad7 := by
  rw [parityShifts, List.flatMap_append, bits_of_outShifts v 0 [8, 8, 8, 8] (by decide), List.flatMap_singleton,
    lowBits_parityByte]
  simp [lowBits]

theorem counts_of_parityShifts (cfg : Cfg) (v : Word) : (parityShifts cfg v).map Prod.snd = [8, 8, 8, 8, 8] := rfl

/-- A chunk of 8 bits is a byte of the value. -/
theorem chunkAt_byte (v : Word) (o : Nat) : chunkAt v o 8 = (v >>> o) &&& 0xFF := by
  refine BitVec.eq_of_toNat_eq ?_
  rw [chunkAt, BitVec.toNat_setWidth, BitVec.extractLsb'_toNat, BitVec.toNat_and, BitVec.toNat_ushiftRight]
  exact (Nat.mod_eq_of_lt (by omega)).trans (Nat.and_two_pow_sub_one_eq_mod _ 8).symm

/-- The last byte needs no mask. -/
theorem chunkAt_topByte (v : Word) : chunkAt v 24 8 = v >>> 24 := by
  refine BitVec.eq_of_toNat_eq ?_
  have := v.isLt
  rw [chunkAt, BitVec.toNat_setWidth, BitVec.extractLsb'_toNat, BitVec.toNat_ushiftRight, Nat.shiftRight_eq_div_pow]
  omega

/-- The five calls of R134: the four bytes low to high, then the parity byte. -/
theorem calls_of_parityShifts (cfg : Cfg) (v : Word) :
    ((parityShifts cfg v).map fun x => Instr.shiftOut x.1 x.2) =
      [.shiftOut (v &&& 0xFF) 8, .shiftOut ((v >>> 8) &&& 0xFF) 8, .shiftOut ((v >>> 16) &&& 0xFF) 8,
        .shiftOut (v >>> 24) 8, .shiftOut (parityByte cfg v) 8] := by
  have top : chunkAt v (0 + 8 + 8 + 8) 8 = v >>> 24 := chunkAt_topByte v
  simp only [parityShifts, outShifts, List.map_cons, List.map_nil, top, chunkAt_byte v 0, chunkAt_byte v 8,
    chunkAt_byte v 16, BitVec.ushiftRight_zero, List.cons_append, List.nil_append]

/-! ### The two outputs -/

section
variable {s : State}

/-- From `s` to `t` an out-class call has drained, turned the line to the host, run its shifts and dropped the carry
(R130, R134). -/
structure DroveOut (bits : List Bool) (ns : List Nat) (ops : List Instr) (s t : State) : Prop where
  reply : t.reply = .unit
  session : t.session
    = { s.session with dir := .drive, width := lastWidth s.session.width ns, carryValid := false }
  wire : t.wire = s.wire ++ cyclesOf .drive bits
  calls : t.calls = s.calls ++ [.drain, .drive] ++ ops
  config : t.config = s.config ++ [.drained] ++ pinEvents s.session.dir .drive ++ widthEvents s.session.width ns
  pin : t.pin = if s.session.dir = .drive then s.pin else .pushPull
  shifter : t.shifterWidth = lastPhysical s.session.width s.shifterWidth ns
  completed : Completed s t 0 ns.length (ns.length + 2)

theorem drive_drain_eq (s : State) :
    drive (drain s) =
      { s with
        session := { s.session with dir := .drive }
        pin := if s.session.dir = .drive then s.pin else .pushPull
        rxbuf := []
        calls := s.calls ++ [.drain, .drive]
        config := s.config ++ [.drained] ++ pinEvents s.session.dir .drive
        upc := s.upc + 2 } := by
  rw [drive_eq, drain_eq]
  simp

theorem ShiftsRan.droveOut {bits : List Bool} {ns : List Nat} {ops : List Instr} {u : State}
    (ran : ShiftsRan .drive bits ns ops (drive (drain s)) u) : DroveOut bits ns ops s (commitOut u) := by
  have hprep : Completed s (finish .unit (drive (drain s))) 0 0 2 := by
    rw [drive_drain_eq]
    constructor <;> simp
  have hdone := ran.completed hprep .unit { u.session with carryValid := false }
  rw [drive_drain_eq] at ran
  exact
  { reply := rfl
    session := by rw [commitOut, finish_session, ran.session]
    wire := ran.wire
    calls := ran.calls
    config := ran.config
    pin := ran.pin
    shifter := ran.shifter
    completed := hdone }

theorem drive_drain_readyFor {m : Nat} (h : s.readyFor m) : (drive (drain s)).readyFor m :=
  State.readyFor.after (k := 0) (by simpa using h) (by rw [drive_drain_eq]; rfl) (by rw [drive_drain_eq]; rfl)

theorem exec_sequenceOut_ready (v : Word) {n : Nat} (hs : s.canRun) (hn : n ∈ outCycles)
    (hr : s.readyFor (s.cfg.outChunks n).length) :
    ∃ t, exec (.sequenceOut v n) s = .next t
      ∧ DroveOut (lowBits v n) (s.cfg.outChunks n)
          ((outShifts v 0 (s.cfg.outChunks n)).map fun x => .shiftOut x.1 x.2) s t := by
  have ok := Cfg.ok hs.1
  have hw : ∀ x ∈ outShifts v 0 (s.cfg.outChunks n), x.2 ∈ (drive (drain s)).cfg.widths := by
    rw [drive_drain_eq]
    exact fun x hx => ok.outWidths n hn _ (count_of_mem_outShifts hx)
  obtain ⟨u, hu, ran⟩ := writeShifts_ready hw (drive_drain_readyFor (by simpa using hr))
  have hbits : ((outShifts v 0 (s.cfg.outChunks n)).flatMap fun x => lowBits x.1 x.2) = lowBits v n := by
    rw [bits_of_outShifts v 0 _ fun w hw => ok.le (ok.outWidths n hn w hw), ok.outSum n hn]
    simp [lowBits]
  rw [hbits, counts_of_outShifts] at ran
  refine ⟨commitOut u, ?_, ran.droveOut⟩
  rw [exec, execSequenceOut, whenBound_of_canRun hs, if_pos hn, hu]
  rfl

theorem exec_sequenceOutParity_ready (v : Word) (hs : s.canRun) (hr : s.readyFor 5) :
    ∃ t, exec (.sequenceOutParity v 32) s = .next t
      ∧ DroveOut (lowBits v 32 ++ parity32 v :: padBits s.cfg.pad7) [8, 8, 8, 8, 8]
          ((parityShifts s.cfg v).map fun x => .shiftOut x.1 x.2) s t := by
  have hw : ∀ x ∈ parityShifts s.cfg v, x.2 ∈ (drive (drain s)).cfg.widths := by
    rw [drive_drain_eq]
    exact fun x hx => (count_of_mem_parityShifts hx).symm ▸ (Cfg.ok hs.1).eight
  obtain ⟨u, hu, ran⟩ := writeShifts_ready hw (drive_drain_readyFor hr)
  rw [bits_of_parityShifts, counts_of_parityShifts] at ran
  refine ⟨commitOut u, ?_, ran.droveOut⟩
  rw [exec, execSequenceOutParity, whenBound_of_canRun hs, if_pos rfl, hu]
  rfl

/-! ### A word read back (R146) -/

/-- The bits of a parity read that follow the carry `V[0]` are those of `V`, so the word is `V`. -/
theorem readWord_eq {V : Word} (hcarry : s.session.carry = V.getLsbD 0)
    (hbits : ∀ i, i < 31 → s.oracle i = V.getLsbD (i + 1)) : readWord s = V := by
  refine BitVec.eq_of_getLsbD_eq fun i hi => ?_
  cases i with
  | zero => rw [getLsbD_readWord_zero, hcarry]
  | succ i => rw [getLsbD_readWord_succ s (by omega), hbits i (by omega)]

/-- What a parity read returns of a word presented to it: the word, and whether the bit after it is not its parity. -/
theorem parityRead_of_presented {V : Word} (hs : s.canRun) (hcv : s.session.carryValid = true)
    (hr : s.readyFor s.cfg.inParityChunks.length) (hcarry : s.session.carry = V.getLsbD 0)
    (hbits : ∀ i, i < 31 → s.oracle i = V.getLsbD (i + 1)) :
    ∃ t, exec (.sequenceInParity 32) s = .next t ∧ t.session.result = V
      ∧ t.session.perr = (parity32 V != s.oracle 31) := by
  obtain ⟨u, hx, read⟩ := exec_sequenceInParity_ready hs hcv hr
  rw [commitData_of_readFrom read, readWord_eq hcarry hbits] at hx
  exact ⟨_, hx, rfl, rfl⟩

/-- What a completed `sequence_out_parity` drove, from any state and under any configuration (R134). -/
theorem driven_of_sequenceOutParity {V : Word} {s₀ t₀ : State} (h : exec (.sequenceOutParity V 32) s₀ = .next t₀)
    (hf : t₀.session.faulted = false) (hb : t₀.busy = false) :
    (t₀.wire.drop s₀.wire.length).map Cyc.bit = lowBits V 32 ++ parity32 V :: padBits s₀.cfg.pad7 := by
  obtain ⟨u, ran, commits⟩ := ran_of_not_faulted_of_idle h hf hb
  have hbits : phaseBits (.sequenceOutParity V 32) s₀ = lowBits V 32 ++ parity32 V :: padBits s₀.cfg.pad7 := by
    rw [← bits_of_parityShifts]
    simp [phaseBits, phaseIn, phaseOut, State.coming]
  rw [(commits_kept commits).wire, ran.wire, prepared_wire, List.drop_left, hbits]
  simp [cyclesOf, Function.comp_def]

/-- Bit `i` of the word and then its parity bit, by their place among the bits driven. -/
theorem getElem?_driven_word {V : Word} {tail : List Bool} {i : Nat} (hi : i < 32) :
    (lowBits V 32 ++ tail)[i]? = some (V.getLsbD i) := by
  rw [List.getElem?_append_left (by simpa using hi)]
  simp [lowBits, hi]

theorem getElem?_driven_parity {V : Word} {p : Bool} {tail : List Bool} :
    (lowBits V 32 ++ p :: tail)[32]? = some p := by
  rw [List.getElem?_append_right (by simp)]
  simp

end
end Sys2Proof.Machine
end

section
/-! The statements about the outputs of the Sequence Engine, parity, and a word read back. -/

open Sys2Proof Sys2Proof.Machine

/-- Settles O40: the chunks put the low bits on the wire as one stream. -/
theorem rawOutputDrivesTheLowBits : Obligations.RawOutputDrivesTheLowBits := by
  intro s v n hs hn hr
  obtain ⟨t, hx, out⟩ := exec_sequenceOut_ready v hs hn hr
  exact ⟨t, hx, out.reply, out.session, out.wire, out.calls, out.config, out.pin, out.shifter, out.completed⟩

/-- Settles O41: the bits on the wire are those of the value, whatever the chunks. -/
theorem rawOutputDoesNotDependOnItsChunks : Obligations.RawOutputDoesNotDependOnItsChunks := by
  intro s cfg v n hs hc hn hr hr'
  obtain ⟨t, hx, out⟩ := exec_sequenceOut_ready v hs hn hr
  obtain ⟨t', hx', out'⟩ := exec_sequenceOut_ready (s := { s with cfg := cfg }) v ⟨hc, hs.2⟩ hn hr'
  refine ⟨t, t', hx, hx', out'.reply.trans out.reply.symm, out'.wire.trans out.wire.symm, ?_, out'.calls⟩
  rw [out'.session, out.session]

/-- Settles O42: the five bytes are the word, its parity bit and the overhead bits. -/
theorem parityOutputDrivesWordParityAndPadding : Obligations.ParityOutputDrivesWordParityAndPadding := by
  intro s v hs hr
  obtain ⟨t, hx, out⟩ := exec_sequenceOutParity_ready v hs hr
  have hcalls := out.calls
  rw [calls_of_parityShifts, List.append_assoc] at hcalls
  exact ⟨t, hx, out.reply, out.session, out.wire, hcalls, out.config, out.pin, out.shifter, out.completed⟩

/-- Settles O43: PAD7 is in the last byte only, above its parity bit. -/
theorem overheadBitsAreTheParameter : Obligations.OverheadBitsAreTheParameter := by
  intro s v pad hs hr
  obtain ⟨t, hx, out⟩ := exec_sequenceOutParity_ready v hs hr
  obtain ⟨t', hx', out'⟩ :=
    exec_sequenceOutParity_ready (s := { s with cfg := { s.cfg with pad7 := pad } }) v hs hr
  refine ⟨t, t', hx, hx', out'.session.trans out.session.symm, out'.config.trans out.config.symm, ?_, ?_, ?_⟩
  · rw [out'.calls, out.calls]
    simp only [parityShifts, List.map_append, List.map_singleton, ← List.append_assoc, List.dropLast_concat]
  · have htake : t.wire.take (s.wire.length + 33) = s.wire ++ cyclesOf .drive (lowBits v 32 ++ [parity32 v]) := by
      rw [out.wire, List.append_cons, cyclesOf_append, ← List.append_assoc]
      exact List.take_left' (by simp)
    rw [out'.wire, htake, List.append_assoc, ← cyclesOf_append, List.append_assoc]
    rfl
  · rintro rfl
    rw [← padBits_zero]
    exact out'.wire

/-- Settles O44: counting the ones and taking their exclusive or agree. -/
theorem parityIsEven : Obligations.ParityIsEven := by
  refine ⟨fun v => ⟨?_, ones_with_parity_even v⟩, by decide, by decide, by decide, by decide, by decide⟩
  rw [foldr_xor_eq_odd, parity32_eq_odd]

/-- Settles O45: the exact form, and the loopback from it by what the output drove. -/
theorem parityRoundTrip : Obligations.ParityRoundTrip := by
  refine ⟨fun V s hs hcv hr hcarry hbits => ?_, fun V s₀ t₀ s h hf hb hs hcv hr hcarry hbits => ?_⟩
  · obtain ⟨t, hx, hresult, hperr⟩ := parityRead_of_presented hs hcv hr hcarry hbits
    exact ⟨t, hx, hresult, fun hp => by rw [hperr, hp, bne_self_eq_false], fun hp => by
      rw [hperr, hp, Bool.bne_not_self]⟩
  · rw [driven_of_sequenceOutParity h hf hb] at hcarry hbits ⊢
    have hV : V.getLsbD 0 = s.session.carry := by
      simpa only [getElem?_driven_word (show 0 < 32 by omega), Option.some.injEq] using hcarry
    have hVs (i) (hi : i < 31) : V.getLsbD (i + 1) = s.oracle i := by
      simpa only [getElem?_driven_word (show i + 1 < 32 by omega), Option.some.injEq] using hbits i hi
    obtain ⟨t, hx, hresult, hperr⟩ :=
      parityRead_of_presented hs hcv hr hV.symm fun i hi => (hVs i hi).symm
    refine ⟨t, hx, hresult, ?_⟩
    simp only [getElem?_driven_parity, Option.some.injEq, hperr]
    exact ⟨fun hp => by rw [hp, bne_self_eq_false], fun hp => by rw [hp, Bool.not_bne_self]⟩

end

section
/-! SUPPORT. What every call keeps, read off the ways `exec` can answer: the traces and the fields the work before the
shifts may touch, the mode and the number of the cycles, and the end of a call whose shifts become ready (spec
10_state.md R25, R36; 20_memory.md R55, R59; 60_exceptions.md R180; 70_reset_and_hazards.md R215, R218). -/

namespace Sys2Proof.Machine

/-! ### The work before the shifts -/

/-- The micro-ops a call ends before its shifts. -/
def preparedOps (s : State) : Instr → List Instr
  | .sequenceIn _ => [.sense]
  | .sequenceInParity _ => [.sense]
  | .sequenceOut _ _ => [.drain, .drive]
  | .sequenceOutParity _ _ => [.drain, .drive]
  | .init => [.setDiv (divisorOf s.cfg s.cfg.clkdivReset)]
  | .setDivisor v => [.setDiv (divisorOf s.cfg v)]
  | .shiftIn _ => []
  | .shiftOut _ _ => []
  | .drain => [.drain]
  | .setDiv v => [.setDiv (divisorOf s.cfg v)]
  | .drive => [.drive]
  | .sense => [.sense]

theorem prepared_calls (i : Instr) (s : State) : (prepared i s).calls = s.calls ++ preparedOps s i := by
  cases i <;> simp [prepared, preparedOps, sense_eq, drive_eq, drain_eq, setDiv_eq]

/-- None of them asks for a cycle. -/
theorem requestedCycles_preparedOps (i : Instr) (s : State) :
    ((preparedOps s i).map Instr.requestedCycles).sum = 0 := by
  cases i <;> rfl

theorem prepared_config (i : Instr) (s : State) : s.config <+: (prepared i s).config := by
  cases i <;> simp [prepared, sense_eq, drive_eq, drain_eq, setDiv_eq, List.append_assoc]

/-- A call that shifts has, before that, touched DIR alone of `S`. -/
theorem prepared_session_of_shifting {i : Instr} (h : shifting i = true) (s : State) :
    (prepared i s).session = { s.session with dir := (prepared i s).session.dir } := by
  cases i <;> simp [shifting] at h <;> simp [prepared, sense_eq, drive_drain_eq]

theorem prepared_slots_of_ne_init {i : Instr} (h : i ≠ .init) (s : State) : (prepared i s).slots = s.slots := by
  cases i <;> simp [prepared, sense_eq, drive_eq, drain_eq, setDiv_eq] at h ⊢

/-- When the shifts of a call begin, the line is in the mode of its phase (R113, R114). -/
theorem prepared_dir_of_shifting {i : Instr} {s : State} (h : shifting i = true) (adm : Admitted i s) :
    (prepared i s).session.dir = phaseMode i := by
  cases i with
  | sequenceIn n | sequenceInParity n => simp [prepared, phaseMode, sense_eq]
  | sequenceOut v n | sequenceOutParity v n => simp [prepared, phaseMode, drive_drain_eq]
  | shiftIn n => exact adm.sensing ⟨n, rfl⟩
  | shiftOut b n => exact adm.driving ⟨b, n, rfl⟩
  | init | setDivisor v | drain | setDiv v | drive | sense => cases h

/-! ### The two ends of a call that ran, put together -/

/-- Committing or hanging keeps what `Kept` says of the state the shifts left, but for BUSY. -/
structure Left (u t : State) : Prop where
  dir : t.session.dir = u.session.dir
  wire : t.wire = u.wire
  calls : t.calls = u.calls
  config : t.config = u.config

theorem left_of_ended {cv : Bool} {i : Instr} {u t : State} (h : Commits cv i u t ∨ t = hang u ∧ shifting i = true) :
    Left u t := by
  obtain h | ⟨rfl, -⟩ := h
  · have kept := commits_kept h
    exact ⟨kept.dir, kept.wire, kept.calls, kept.config⟩
  · exact ⟨rfl, rfl, rfl, rfl⟩

/-! ### The mode of the cycles and the growth of the traces -/

section
variable {i : Instr} {s t : State}

/-- Every cycle a call clocks has the mode of the line at its end (R113, R114). -/
theorem wire_of_exec (hc : s.cfg.wf = true) (h : exec i s = .next t) :
    ∃ bits, t.wire = s.wire ++ cyclesOf t.session.dir bits := by
  obtain ⟨-, rfl⟩ | ⟨-, c, -, rfl⟩ | ⟨adm, u, hu, ended, idle⟩ := exec_cases hc h
  · exact ⟨[], by simp⟩
  · refine ⟨[], ?_⟩
    cases hi : i.isCommand <;> simp [called, hi]
  · have left := left_of_ended ended
    cases hs : shifting i
    · obtain rfl := idle hs
      exact ⟨[], by simp [left.wire]⟩
    · obtain ⟨bits, hbits⟩ := hu.wire
      refine ⟨bits, ?_⟩
      rw [left.wire, hbits, prepared_wire, left.dir, hu.session]
      rw [prepared_dir_of_shifting hs adm]

/-- The traces of a call begin with the traces before it (R59). -/
theorem traces_grow_of_exec (hc : s.cfg.wf = true) (h : exec i s = .next t) :
    s.wire <+: t.wire ∧ s.calls <+: t.calls ∧ s.config <+: t.config := by
  obtain ⟨-, rfl⟩ | ⟨-, c, -, rfl⟩ | ⟨-, u, hu, ended, -⟩ := exec_cases hc h
  · exact ⟨List.prefix_rfl, List.prefix_rfl, List.prefix_rfl⟩
  · cases hi : i.isCommand <;> simp [called, hi]
  · have left := left_of_ended ended
    obtain ⟨bits, hwire⟩ := hu.wire
    obtain ⟨ops, hcalls, -⟩ := hu.calls
    obtain ⟨events, hconfig⟩ := hu.config
    rw [left.wire, left.calls, left.config, hwire, hcalls, hconfig, prepared_wire, prepared_calls, List.append_assoc]
    exact ⟨List.prefix_append .., List.prefix_append .., (prepared_config i s).trans (List.prefix_append ..)⟩

/-! ### A call that hangs -/

/-- Only a call that shifts hangs, and it left `S` alone but for DIR and WIDTH (R180). -/
theorem hung_of_busy (hc : s.cfg.wf = true) (h : exec i s = .next t) (hb : t.busy = true) :
    shifting i = true ∧ Admitted i s ∧ t.slots = s.slots ∧ t.reply = .pending
      ∧ t.session = { s.session with dir := t.session.dir, width := t.session.width } := by
  obtain ⟨-, rfl⟩ | ⟨-, c, -, rfl⟩ | ⟨adm, u, hu, commits | ⟨rfl, hs⟩, -⟩ := exec_cases hc h
  · cases hb
  · cases hb
  · exact Bool.noConfusion ((commits_kept commits).busy.symm.trans hb)
  · have hne : i ≠ .init := by
      rintro rfl
      cases hs
    refine ⟨hs, adm, hu.slots.trans (prepared_slots_of_ne_init hne s), rfl, ?_⟩
    rw [hang_session, hu.session, prepared_session_of_shifting hs]

/-! ### A call that ends -/

/-- A command that ends without a fatal has passed the dispatcher (R176 steps 1 and 3). -/
theorem body_of_not_faulted {body : State → Host.Outcome State Fault Refusal} (h : whenBound s body = .next t)
    (hf : t.session.faulted = false) : body s = .next t := by
  obtain ⟨hs, rfl⟩ | ⟨-, -, rfl⟩ | ⟨-, h⟩ := whenBound_eq_next h
  · exact Bool.noConfusion (hf.symm.trans hs)
  · cases hf
  · exact h

/-- A check that would have raised a fatal has been met (R176 steps 4 and 5). -/
theorem checked_of_not_faulted {p : Prop} [Decidable p] {c : Cause} {body : Host.Outcome State Fault Refusal}
    (h : (if p then body else .next (raiseFatal c s)) = .next t) (hf : t.session.faulted = false) :
    p ∧ body = .next t := by
  by_cases hp : p
  · exact ⟨hp, by rwa [if_pos hp] at h⟩
  · rw [if_neg hp] at h
    cases h
    cases hf

/-- A command that ends without a fatal has met its preconditions (R176). -/
theorem meetsPreconditions_of_not_faulted (hi : i.isCommand = true) (h : exec i s = .next t)
    (hf : t.session.faulted = false) : MeetsPreconditions s i := by
  cases i with
  | sequenceIn n =>
    rw [exec, execSequenceIn] at h
    obtain ⟨rfl, -⟩ := checked_of_not_faulted (body_of_not_faulted h hf) hf
    exact .sequenceIn
  | sequenceInParity n =>
    rw [exec, execSequenceInParity] at h
    obtain ⟨rfl, hcarried⟩ := checked_of_not_faulted (body_of_not_faulted h hf) hf
    exact .sequenceInParity (checked_of_not_faulted hcarried hf).1
  | sequenceOut v n =>
    rw [exec, execSequenceOut] at h
    exact .sequenceOut v (checked_of_not_faulted (body_of_not_faulted h hf) hf).1
  | sequenceOutParity v n =>
    rw [exec, execSequenceOutParity] at h
    obtain ⟨rfl, -⟩ := checked_of_not_faulted (body_of_not_faulted h hf) hf
    exact .sequenceOutParity v
  | init => exact .init
  | setDivisor v => exact .setDivisor v
  | shiftIn n | shiftOut b n | drain | setDiv v | drive | sense => cases hi

/-- The counts of the phase of a call that ends without a fatal add up to its row of R215; a micro-op asks for
its own. -/
theorem phaseCounts_sum_of_not_faulted (hc : s.cfg.wf = true) (h : exec i s = .next t)
    (hf : t.session.faulted = false) : (phaseCounts i s).sum = physicalCycles s.session.carryValid i := by
  cases hi : i.isCommand
  · cases i <;> simp [Instr.isCommand] at hi <;> simp [phaseCounts, phaseIn, phaseOut, physicalCycles]
  · exact phaseCounts_sum hc (meetsPreconditions_of_not_faulted hi h hf)

/-- A call that ends with the latch set clocked no cycle (R172, R177). -/
theorem wire_of_faulted (hc : s.cfg.wf = true) (h : exec i s = .next t) (ht : t.session.faulted = true) :
    t.wire = s.wire := by
  cases hf : s.session.faulted
  · obtain ⟨c, -, rfl⟩ := raised_of_faulted hc hf h ht
    cases hi : i.isCommand <;> simp [called, hi]
  · rw [exec_of_faulted hf] at h
    obtain rfl := Host.Outcome.next.inj h
    rfl

/-- The shifts of a phase ask for the cycles of its counts (R55). -/
theorem requestedCycles_phaseOps (i : Instr) (s : State) :
    ((phaseOps i s).map Instr.requestedCycles).sum = (phaseCounts i s).sum := by
  rw [phaseOps, phaseCounts, List.map_append, List.map_map, List.map_map, List.sum_append, List.sum_append]
  congr 1
  exact congrArg List.sum (List.map_id _)

/-- The flag of R145 is set by `sequence_in` alone, if `set_divisor` and the micro-ops are left out (R25). -/
theorem carryValidAfter_eq_true_iff (hi : i.isCommand = true) (hd : ∀ v, i ≠ .setDivisor v) (cv : Bool) :
    carryValidAfter cv i = true ↔ ∃ n, i = .sequenceIn n := by
  cases i <;> simp [carryValidAfter, Instr.isCommand] at hi hd ⊢

/-! ### A call that hangs, and the same call when its shifts become ready -/

/-- A call that hung with some readiness inputs ends, without a fatal, with others that let its shifts become ready: its
checks look at no readiness (R97, R219). -/
theorem completes_if_ready_of_hung {env : List ShiftEnv} (hc : s.cfg.wf = true) (h : exec i s = .next t)
    (hb : t.busy = true) (hr : ({ s with shifts := env } : State).readyFor (shiftCount s.cfg i)) :
    ∃ t', exec i { s with shifts := env } = .next t' ∧ t'.busy = false ∧ t'.session.faulted = false := by
  obtain ⟨hs, adm, -, -, hses⟩ := hung_of_busy hc h hb
  have hf := adm.notFaulted
  have pre (hi : i.isCommand = true) : MeetsPreconditions s i :=
    meetsPreconditions_of_not_faulted hi h (by rw [hses]; exact hf)
  have canRun (hi : i.isCommand = true) (hne : i ≠ .init) : s.canRun := ⟨hc, hf, adm.bound hi hne⟩
  cases i with
  | sequenceIn n =>
    cases pre rfl
    obtain ⟨u, hx, read⟩ := exec_sequenceIn_ready (s := { s with shifts := env }) (canRun rfl nofun) hr
    exact ⟨_, hx, rfl, (congrArg Session.faulted read.session).trans hf⟩
  | sequenceInParity n =>
    cases pre rfl with | sequenceInParity hcv =>
    obtain ⟨u, hx, read⟩ := exec_sequenceInParity_ready (s := { s with shifts := env }) (canRun rfl nofun) hcv hr
    exact ⟨_, hx, rfl, (congrArg Session.faulted read.session).trans hf⟩
  | sequenceOut v n =>
    cases pre rfl with | sequenceOut _ hn =>
    obtain ⟨t', hx, out⟩ := exec_sequenceOut_ready (s := { s with shifts := env }) v (canRun rfl nofun) hn hr
    exact ⟨t', hx, out.completed.idle, (congrArg Session.faulted out.session).trans hf⟩
  | sequenceOutParity v n =>
    cases pre rfl
    obtain ⟨t', hx, out⟩ := exec_sequenceOutParity_ready (s := { s with shifts := env }) v (canRun rfl nofun) hr
    exact ⟨t', hx, out.completed.idle, (congrArg Session.faulted out.session).trans hf⟩
  | shiftIn n =>
    have hn : n ∈ s.cfg.widths := by
      by_contra hn
      rw [exec_shiftIn_unsupported hf hn] at h
      cases h
      cases hb
    obtain ⟨u, hx, ran⟩ := exec_shiftIn_ready (s := { s with shifts := env }) hf (adm.sensing ⟨n, rfl⟩) hn hr
    exact ⟨_, hx, rfl, (congrArg Session.faulted ran.session).trans hf⟩
  | shiftOut b n =>
    have hn : n ∈ s.cfg.widths := by
      by_contra hn
      rw [exec_shiftOut_unsupported b hf hn] at h
      cases h
      cases hb
    obtain ⟨u, hx, ran⟩ := exec_shiftOut_ready (s := { s with shifts := env }) hf (adm.driving ⟨b, n, rfl⟩) hn hr
    exact ⟨_, hx, rfl, (congrArg Session.faulted ran.session).trans hf⟩
  | init | setDivisor v | drain | setDiv v | drive | sense => cases hs

/-- No work before the shifts looks at a readiness input (R97). -/
theorem prepared_withShifts (i : Instr) (s : State) (env : List ShiftEnv) :
    prepared i { s with shifts := env } = { prepared i s with shifts := env } := by
  cases i <;> simp only [prepared, sense_eq, drive_eq, drain_eq] <;> rfl

/-- Shifts that were begun left a first part of what the same shifts leave when they run whole (R97). -/
theorem ShiftsBegun.prefix_of_ran {mode : Dir} {bits : List Bool} {ns : List Nat} {ops : List Instr}
    {p u u' : State} {env : List ShiftEnv} (begun : ShiftsBegun mode bits ns ops p u)
    (ran : ShiftsRan mode bits ns ops { p with shifts := env } u') :
    u.wire <+: u'.wire ∧ u.calls <+: u'.calls ∧ u.config <+: u'.config ∧ u.upc < u'.upc := by
  obtain ⟨b, hb, hwire⟩ := begun.wire
  obtain ⟨o, ho, hcalls⟩ := begun.calls
  obtain ⟨e, he, hconfig⟩ := begun.config
  rw [hwire, hcalls, hconfig, ran.wire, ran.calls, ran.config, ran.upc]
  exact ⟨(List.prefix_append_right_inj _).mpr (hb.map _), (List.prefix_append_right_inj _).mpr ho,
    (List.prefix_append_right_inj _).mpr he, begun.upc⟩

end
end Sys2Proof.Machine
end

section
/-! The statements about every call: its cycles, its traces, and how it hangs. -/

open Sys2Proof Sys2Proof.Machine

/-- Settles O33: the shifts of a call run in the mode its work before them has set, and nothing after sets another. -/
theorem everyCycleHasTheModeOfItsPhase : Obligations.EveryCycleHasTheModeOfItsPhase := fun _ _ _ hc h =>
  wire_of_exec hc h

/-- Settles O47: a call that ends ran its phase whole, or raised its fatal before any cycle. -/
theorem physicalCyclesOfEveryCall : Obligations.PhysicalCyclesOfEveryCall := by
  intro i s t hc h hb
  cases hf : t.session.faulted
  · obtain ⟨u, ran, commits⟩ := ran_of_not_faulted_of_idle h hf hb
    rw [(commits_kept commits).wire, ran.wire, prepared_wire, List.length_append, cyclesOf_length, phaseBits_length,
      phaseCounts_sum_of_not_faulted hc h hf, if_neg Bool.false_ne_true]
  · rw [wire_of_faulted hc h hf]
    rfl

/-- Settles O48: the flag after a completed command is the one `carryValidAfter` gives. -/
theorem carryIsValidExactlyAfterAnAckRead : Obligations.CarryIsValidExactlyAfterAnAckRead := by
  intro i s t hi hd h hb hf
  obtain ⟨u, ran, commits⟩ := ran_of_not_faulted_of_idle h hf hb
  rw [carryValid_of_commits (by rw [ran.session]) commits]
  exact carryValidAfter_eq_true_iff hi hd _

/-- Settles O50: a hung call has made none of its last writes. -/
theorem hangLeavesTheResultsAlone : Obligations.HangLeavesTheResultsAlone := by
  intro i s t hc h hb
  obtain ⟨-, adm, hslots, hreply, hses⟩ := hung_of_busy hc h hb
  exact ⟨hses, by rw [hses]; exact adm.notFaulted, hreply, hslots⟩

/-- Settles O51: both calls have the one phase, which one of them begins and the other runs whole. -/
theorem hungCallStopsInsideItsTrace : Obligations.HungCallStopsInsideItsTrace := by
  intro i s t t' env hc h hb hr h'
  obtain ⟨t'', hx, hb', hf'⟩ := completes_if_ready_of_hung hc h hb hr
  obtain rfl := Host.Outcome.next.inj (h'.symm.trans hx)
  obtain ⟨-, adm, -, -, hses⟩ := hung_of_busy hc h hb
  obtain ⟨u, ⟨-, commits⟩ | ⟨begun, rfl⟩⟩ := exec_ended h (by rw [hses]; exact adm.notFaulted)
  · exact Bool.noConfusion ((commits_kept commits).busy.symm.trans hb)
  · obtain ⟨u', ran, commits⟩ := ran_of_not_faulted_of_idle h' hf' hb'
    rw [prepared_withShifts] at ran
    have kept := commits_kept commits
    rw [kept.wire, kept.calls, kept.config, kept.upc]
    exact ⟨hb', begun.prefix_of_ran ran⟩

/-- Settles O52: the shifts of a phase are recorded with their counts; what a call does before them asks for no cycle,
and a fatal of a command comes before all of them. -/
theorem wireCyclesEqualRequestedCycles : Obligations.WireCyclesEqualRequestedCycles := by
  intro i s t hc h hb hends
  cases hf : t.session.faulted
  · obtain ⟨u, ran, commits⟩ := ran_of_not_faulted_of_idle h hf hb
    refine ⟨preparedOps s i ++ phaseOps i s, ?_, ?_⟩
    · rw [(commits_kept commits).calls, ran.calls, prepared_calls, List.append_assoc]
    · rw [(commits_kept commits).wire, ran.wire, prepared_wire, List.length_append, cyclesOf_length, phaseBits_length,
        List.map_append, List.sum_append, requestedCycles_preparedOps, requestedCycles_phaseOps, Nat.zero_add]
  · refine ⟨[], ?_, by rw [wire_of_faulted hc h hf]; rfl⟩
    have hi : i.isCommand = true := hends.resolve_right (by simp [hf])
    cases hs : s.session.faulted
    · obtain ⟨c, -, rfl⟩ := raised_of_faulted hc hs h hf
      rw [called_of_isCommand hi]
      simp
    · rw [exec_of_faulted hs] at h
      obtain rfl := Host.Outcome.next.inj h
      simp

/-- Settles O53: every way a step but reset can go on appends to the traces or leaves them. -/
theorem tracesOnlyGrow : Obligations.TracesOnlyGrow := by
  intro s t h hr
  have hc := wf_of_step h
  obtain ⟨-, rfl⟩ | ⟨rest, hi, -⟩ | ⟨w, rest, e, -, -, -, rfl⟩ | ⟨w, rest, i, -, -, hx⟩ := step_cases hc h
  · exact ⟨List.prefix_rfl, List.prefix_rfl, List.prefix_rfl⟩
  · exact absurd hi (hr rest)
  · unfold rejectOp
    split <;> exact ⟨List.prefix_rfl, List.prefix_rfl, List.prefix_rfl⟩
  · exact traces_grow_of_exec (s := accept w rest s) hc hx

end

section
/-! SUPPORT. Which fields a call may write (spec 10_state.md R36), composed from the work before its shifts, the shifts,
and its last writes. -/

namespace Sys2Proof.Machine

/-- From `s` to `t` the call `i` has written only what R36, and R92 to R95, R111, R112 for a micro-op, let it write. -/
structure WritesOnly (i : Instr) (s t : State) : Prop where
  cfg : t.cfg = s.cfg
  carry : (∀ n, i ≠ .sequenceIn n) → t.session.carry = s.session.carry
  results : (∀ n, i ≠ .sequenceIn n) → (∀ n, i ≠ .sequenceInParity n) →
    t.session.result = s.session.result ∧ t.session.perr = s.session.perr
  binding : i ≠ .init → t.session.bound = s.session.bound ∧ t.slots = s.slots
  clkdiv : i ≠ .init → (∀ v, i ≠ .setDivisor v) → (∀ v, i ≠ .setDiv v) → t.session.clkdiv = s.session.clkdiv
  carryValid : i.isCommand = false ∨ (∃ v, i = .setDivisor v) → t.session.carryValid = s.session.carryValid
  line : (∃ v, i = .setDivisor v) ∨ (∃ n, i = .shiftIn n) ∨ (∃ b n, i = .shiftOut b n) ∨ i = .drain
    ∨ (∃ v, i = .setDiv v) → t.session.dir = s.session.dir ∧ t.pin = s.pin
  shifter : (∃ v, i = .setDivisor v) ∨ i = .drain ∨ (∃ v, i = .setDiv v) ∨ i = .drive ∨ i = .sense →
    t.session.width = s.session.width ∧ t.shifterWidth = s.shifterWidth

section
variable {i : Instr} {s t u : State}

theorem WritesOnly.trans (h₁ : WritesOnly i s t) (h₂ : WritesOnly i t u) : WritesOnly i s u where
  cfg := h₂.cfg.trans h₁.cfg
  carry hi := (h₂.carry hi).trans (h₁.carry hi)
  results hi hp := ⟨(h₂.results hi hp).1.trans (h₁.results hi hp).1, (h₂.results hi hp).2.trans (h₁.results hi hp).2⟩
  binding hi := ⟨(h₂.binding hi).1.trans (h₁.binding hi).1, (h₂.binding hi).2.trans (h₁.binding hi).2⟩
  clkdiv hi hd hv := (h₂.clkdiv hi hd hv).trans (h₁.clkdiv hi hd hv)
  carryValid hi := (h₂.carryValid hi).trans (h₁.carryValid hi)
  line hi := ⟨(h₂.line hi).1.trans (h₁.line hi).1, (h₂.line hi).2.trans (h₁.line hi).2⟩
  shifter hi := ⟨(h₂.shifter hi).1.trans (h₁.shifter hi).1, (h₂.shifter hi).2.trans (h₁.shifter hi).2⟩

/-- A refusal, a hang and a fatal write of these fields none. -/
theorem writesOnly_refuseFaulted (i : Instr) (s : State) : WritesOnly i s (refuseFaulted s) := by
  constructor <;> intros <;> simp

theorem writesOnly_hang (i : Instr) (s : State) : WritesOnly i s (hang s) := by
  constructor <;> intros <;> simp

theorem writesOnly_raiseFatal_called (i : Instr) (c : Cause) (s : State) :
    WritesOnly i s (raiseFatal c (called i s)) := by
  unfold called
  split <;> constructor <;> intros <;> simp

/-- Before its shifts a call writes DIR, or CLKDIV, or, if it is `init`, what bring-up writes. -/
theorem writesOnly_prepared (i : Instr) (s : State) : WritesOnly i s (prepared i s) := by
  cases i <;> constructor <;> simp [prepared, sense_eq, drive_eq, drain_eq, setDiv_eq, Instr.isCommand]

/-- The shifts of a call write WIDTH. -/
theorem AdapterTouched.writesOnly {m : Dir} (ht : AdapterTouched m s t) (hi : shifting i = true) :
    WritesOnly i s t := by
  have hs := ht.session
  constructor
  case shifter => rintro (⟨v, rfl⟩ | rfl | ⟨v, rfl⟩ | rfl | rfl) <;> cases hi
  case cfg => exact ht.cfg
  case binding => exact fun _ => ⟨by rw [hs], ht.slots⟩
  case line => exact fun _ => ⟨by rw [hs], ht.pin⟩
  case results => exact fun _ _ => ⟨by rw [hs], by rw [hs]⟩
  all_goals intros; rw [hs]

/-- The last writes of a call are to the carry, RESULT and PERR. -/
theorem writesOnly_of_commits {cv : Bool} (h : Commits cv i s t) : WritesOnly i s t := by
  cases i with
  | sequenceIn n | sequenceInParity n | shiftIn n =>
    obtain ⟨_, rfl⟩ := h
    constructor <;> simp [commitAck, commitData, Instr.isCommand]
  | sequenceOut v n | sequenceOutParity v n | init | setDivisor v | shiftOut b n | drain | setDiv v | drive | sense =>
    obtain rfl := h
    constructor <;> simp [commitOut, Instr.isCommand]

theorem writesOnly_of_exec (hc : s.cfg.wf = true) (h : exec i s = .next t) : WritesOnly i s t := by
  obtain ⟨-, rfl⟩ | ⟨-, c, -, rfl⟩ | ⟨-, u, hu, ended, idle⟩ := exec_cases hc h
  · exact writesOnly_refuseFaulted i s
  · exact writesOnly_raiseFatal_called i c s
  · have hshifts : WritesOnly i s u := by
      cases hs : shifting i
      · rw [idle hs]
        exact writesOnly_prepared i s
      · exact (writesOnly_prepared i s).trans (hu.writesOnly hs)
    obtain commits | ⟨rfl, -⟩ := ended
    · exact hshifts.trans (writesOnly_of_commits commits)
    · exact hshifts.trans (writesOnly_hang i u)

end
end Sys2Proof.Machine
end

section
/-! SUPPORT. Two non-interferences of the Sequence Engine: the bits of the target (spec 42_sequence_engine.md R124,
R127; 60_exceptions.md R178, R179) and the value of the carry (10_state.md R23). -/

namespace Sys2Proof.Machine

/-! ### Other bits of the target -/

/-- `s'` is `s` but for what the target presents and what it has presented: as many cycles are on the wire. -/
def Retargeted (s s' : State) : Prop :=
  ∃ other wire, wire.length = s.wire.length ∧ s' = { s with target := other, wire := wire }

/-- Two runs of shifts that end alike, in states that differ in the target's bits; the values they return may differ. -/
inductive Progress.Alike {α : Type} : Progress α → Progress α → Prop where
  | done (a a' : α) {s s' : State} (h : Retargeted s s') : Alike (.done a s) (.done a' s')
  | hung {s s' : State} (h : Retargeted s s') : Alike (.hung s) (.hung s')
  | fatal (c : Cause) {s s' : State} (h : Retargeted s s') : Alike (.fatal c s) (.fatal c s')

section
variable {s s' t : State}

theorem Retargeted.session (h : Retargeted s s') : s'.session = s.session := by
  obtain ⟨other, wire, hw, rfl⟩ := h
  rfl

theorem Retargeted.cfg (h : Retargeted s s') : s'.cfg = s.cfg := by
  obtain ⟨other, wire, hw, rfl⟩ := h
  rfl

theorem Retargeted.readiness (h : Retargeted s s') : s'.readiness = s.readiness := by
  obtain ⟨other, wire, hw, rfl⟩ := h
  rfl

theorem Retargeted.refuseFaulted (h : Retargeted s s') : Retargeted (refuseFaulted s) (refuseFaulted s') := by
  obtain ⟨other, wire, hw, rfl⟩ := h
  exact ⟨other, wire, hw, rfl⟩

theorem Retargeted.raiseFatal (h : Retargeted s s') (c : Cause) : Retargeted (raiseFatal c s) (raiseFatal c s') := by
  obtain ⟨other, wire, hw, rfl⟩ := h
  exact ⟨other, wire, hw, rfl⟩

theorem Retargeted.hang (h : Retargeted s s') : Retargeted (hang s) (hang s') := by
  obtain ⟨other, wire, hw, rfl⟩ := h
  exact ⟨other, wire, hw, rfl⟩

theorem Retargeted.sense (h : Retargeted s s') : Retargeted (sense s) (sense s') := by
  obtain ⟨other, wire, hw, rfl⟩ := h
  refine ⟨other, wire, by rw [sense_eq]; exact hw, ?_⟩
  rw [sense_eq, sense_eq]

/-- `n` sampled cycles are `n` cycles, whatever their bits. -/
theorem Retargeted.beginShift_sampleBits (h : Retargeted s s') (op : Instr) (n m : Nat) :
    Retargeted (sampleBits m (beginShift op n s)).2 (sampleBits m (beginShift op n s')).2 := by
  obtain ⟨other, wire, hw, rfl⟩ := h
  refine ⟨other.drop m, wire ++ cyclesOf .sense ((beginShift op n { s with target := other, wire := wire }).coming m),
    ?_, ?_⟩
  · simp [sampleBits_eq, beginShift_eq, hw]
  · simp only [sampleBits_eq, beginShift_eq]

theorem Retargeted.shiftIn (h : Retargeted s s') (n : Nat) : Progress.Alike (shiftIn n s) (shiftIn n s') := by
  have hafter := h.beginShift_sampleBits (.shiftIn n) n
  unfold Machine.shiftIn
  rw [h.cfg, h.readiness]
  split
  · cases s.readiness 0 with
    | ready =>
      obtain ⟨other, wire, hw, heq⟩ := hafter n
      exact .done _ _ ⟨other, wire, hw, congrArg retire heq⟩
    | never k => exact .hung (hafter (min k n))
  · obtain ⟨other, wire, hw, rfl⟩ := h
    exact .fatal _ ⟨other, wire, hw, rfl⟩

theorem Retargeted.readChunks (h : Retargeted s s') (ws : List Nat) (o : Nat) (x x' : BitVec 33) :
    Progress.Alike (readChunks ws o x s) (readChunks ws o x' s') := by
  induction ws generalizing o x x' s s' with
  | nil => exact .done _ _ h
  | cons w ws ih =>
    have hshift := h.shiftIn w
    unfold Machine.readChunks
    generalize Machine.shiftIn w s = p, Machine.shiftIn w s' = p' at hshift
    cases hshift with
    | done r r' h => exact ih h _ _ _
    | hung h => exact .hung h
    | fatal c h => exact .fatal c h

/-- Alike runs of shifts commit in states that differ in the target's bits, or end alike without committing. -/
theorem Progress.Alike.settle {α : Type} {p p' : Progress α} (h : Alike p p') (commit : α → State → State) :
    (∃ a a' u u', Retargeted u u' ∧ settle p commit = commit a u ∧ settle p' commit = commit a' u')
      ∨ Retargeted (settle p commit) (settle p' commit) := by
  cases h with
  | done a a' h => exact .inl ⟨a, a', _, _, h, rfl, rfl⟩
  | hung h => exact .inr h.hang
  | fatal c h => exact .inr (h.raiseFatal c)

/-- Two calls did the same as far as the bits of the target are not concerned. -/
structure SameRun (t t' : State) : Prop where
  calls : t'.calls = t.calls
  config : t'.config = t.config
  cycles : t'.wire.length = t.wire.length
  busy : t'.busy = t.busy
  upc : t'.upc = t.upc
  shifts : t'.shifts = t.shifts
  polled : t'.polled = t.polled

theorem Retargeted.sameRun (h : Retargeted s s') : SameRun s s' := by
  obtain ⟨other, wire, hw, rfl⟩ := h
  exact ⟨rfl, rfl, hw, rfl, rfl, rfl, rfl⟩

/-- The last writes of a read are to `S` alone, and BUSY and the reply with them. -/
theorem Retargeted.sameRun_finish (h : Retargeted s s') (r r' : Reply) (x x' : Session) :
    SameRun (finish r { s with session := x }) (finish r' { s' with session := x' }) := by
  obtain ⟨other, wire, hw, rfl⟩ := h
  exact ⟨rfl, rfl, hw, rfl, rfl, rfl, rfl⟩

/-- The dispatcher's checks look at no bit of the target (R176). -/
theorem Retargeted.whenBound {body : State → Host.Outcome State Fault Refusal} {R : State → State → Prop}
    (h : Retargeted s s') (hx : whenBound s body = .next t) (hR : ∀ {u u'}, Retargeted u u' → R u u')
    (hbody : body s = .next t → ∃ t', body s' = .next t' ∧ R t t') :
    ∃ t', whenBound s' body = .next t' ∧ R t t' := by
  obtain ⟨hf, rfl⟩ | ⟨hf, hb, rfl⟩ | ⟨⟨hf, hb⟩, hx⟩ := whenBound_eq_next hx <;> rw [← h.session] at hf
  · exact ⟨_, unlessFaulted_of_faulted hf _, hR h.refuseFaulted⟩
  · rw [← h.session] at hb
    exact ⟨_, whenBound_of_not_bound hf hb _, hR (h.raiseFatal _)⟩
  · rw [← h.session] at hb
    rw [whenBound_of_bound hf hb]
    exact hbody hx

/-- An ACK read differs in the carry and RESULT. -/
def AckAlike (t t' : State) : Prop :=
  SameRun t t' ∧ t'.session = { t.session with carry := t'.session.carry, result := t'.session.result }

/-- A parity read differs in RESULT and PERR. -/
def DataAlike (t t' : State) : Prop :=
  SameRun t t' ∧ t'.session = { t.session with result := t'.session.result, perr := t'.session.perr }

theorem Retargeted.ackAlike (h : Retargeted s s') : AckAlike s s' := ⟨h.sameRun, by rw [h.session]⟩

theorem Retargeted.dataAlike (h : Retargeted s s') : DataAlike s s' := ⟨h.sameRun, by rw [h.session]⟩

theorem Retargeted.exec_sequenceIn {n : Nat} (h : Retargeted s s') (hx : exec (.sequenceIn n) s = .next t) :
    ∃ t', exec (.sequenceIn n) s' = .next t' ∧ AckAlike t t' := by
  rw [exec, execSequenceIn] at hx ⊢
  refine h.whenBound hx Retargeted.ackAlike fun hx => ?_
  split at hx
  · rename_i hn
    obtain rfl := Host.Outcome.next.inj hx
    refine ⟨_, by rw [if_pos hn, h.session], ?_⟩
    obtain ⟨r, r', u, u', hu, hp, hp'⟩ | hu :=
      (h.sense.shiftIn (ackCycles s.session.carryValid)).settle (commitAck s.session.carryValid)
    · rw [hp, hp']
      exact ⟨hu.sameRun_finish .., by simp [commitAck, hu.session]⟩
    · exact hu.ackAlike
  · rename_i hn
    obtain rfl := Host.Outcome.next.inj hx
    exact ⟨_, if_neg hn, (h.raiseFatal _).ackAlike⟩

theorem Retargeted.exec_sequenceInParity {n : Nat} (h : Retargeted s s')
    (hx : exec (.sequenceInParity n) s = .next t) :
    ∃ t', exec (.sequenceInParity n) s' = .next t' ∧ DataAlike t t' := by
  rw [exec, execSequenceInParity] at hx ⊢
  refine h.whenBound hx Retargeted.dataAlike fun hx => ?_
  rw [h.session, h.cfg]
  split at hx
  · rename_i hn
    rw [if_pos hn]
    split at hx
    · rename_i hcv
      obtain rfl := Host.Outcome.next.inj hx
      refine ⟨_, if_pos hcv, ?_⟩
      obtain ⟨x, x', u, u', hu, hp, hp'⟩ | hu := (h.sense.readChunks s.cfg.inParityChunks 0 0 0).settle commitData
      · rw [hp, hp']
        exact ⟨hu.sameRun_finish .., by simp [commitData, hu.session]⟩
      · exact hu.dataAlike
    · rename_i hcv
      obtain rfl := Host.Outcome.next.inj hx
      exact ⟨_, if_neg hcv, (h.raiseFatal _).dataAlike⟩
  · rename_i hn
    obtain rfl := Host.Outcome.next.inj hx
    exact ⟨_, if_neg hn, (h.raiseFatal _).dataAlike⟩

end

/-! ### Another carry bit -/

/-- The state with another carry bit. -/
def withCarry (c : Bool) (s : State) : State := { s with session.carry := c }

/-- A run of shifts with its state replaced. -/
def Progress.mapState {α : Type} (f : State → State) : Progress α → Progress α
  | .done a s => .done a (f s)
  | .hung s => .hung (f s)
  | .fatal c s => .fatal c (f s)

/-- An outcome with its next state replaced. -/
def mapNext (f : State → State) : Host.Outcome State Fault Refusal → Host.Outcome State Fault Refusal
  | .next s => .next (f s)
  | .fault r => .fault r
  | .refused r => .refused r

section
variable (c : Bool) (s : State)

theorem withCarry_cfg : (withCarry c s).cfg = s.cfg := rfl
theorem withCarry_dir : (withCarry c s).session.dir = s.session.dir := rfl
theorem withCarry_carryValid : (withCarry c s).session.carryValid = s.session.carryValid := rfl
theorem withCarry_faulted : (withCarry c s).session.faulted = s.session.faulted := rfl
theorem withCarry_bound : (withCarry c s).session.bound = s.session.bound := rfl
theorem withCarry_readiness : (withCarry c s).readiness = s.readiness := rfl

theorem sense_withCarry : sense (withCarry c s) = withCarry c (sense s) := by
  rw [sense_eq, sense_eq]
  rfl

theorem drive_withCarry : drive (withCarry c s) = withCarry c (drive s) := by
  rw [drive_eq, drive_eq]
  rfl

theorem beginShift_withCarry (op : Instr) (n : Nat) :
    beginShift op n (withCarry c s) = withCarry c (beginShift op n s) := by
  rw [beginShift_eq, beginShift_eq]
  rfl

theorem shiftIn_withCarry (n : Nat) : shiftIn n (withCarry c s) = (shiftIn n s).mapState (withCarry c) := by
  unfold shiftIn
  rw [withCarry_cfg, withCarry_readiness, beginShift_withCarry]
  split
  · cases s.readiness 0 <;> simp only [sampleBits_eq] <;> rfl
  · rfl

theorem shiftOut_withCarry (b : Word) (n : Nat) :
    shiftOut b n (withCarry c s) = (shiftOut b n s).mapState (withCarry c) := by
  unfold shiftOut
  rw [withCarry_cfg, withCarry_readiness, beginShift_withCarry]
  split
  · cases s.readiness 0 <;> simp only [presentBits_zero] <;> rfl
  · rfl

theorem writeShifts_withCarry (xs : List (Word × Nat)) :
    writeShifts xs (withCarry c s) = (writeShifts xs s).mapState (withCarry c) := by
  induction xs generalizing s with
  | nil => rfl
  | cons x xs ih =>
    simp only [writeShifts, shiftOut_withCarry]
    cases shiftOut x.1 x.2 s with
    | done a u => exact ih u
    | hung u => rfl
    | fatal e u => rfl

/-- A run of shifts settles alike if its commit does not look at the carry. -/
theorem settle_withCarry {α : Type} (p : Progress α) (commit : α → State → State)
    (hcommit : ∀ a u, commit a (withCarry c u) = withCarry c (commit a u)) :
    settle (p.mapState (withCarry c)) commit = withCarry c (settle p commit) := by
  cases p with
  | done a u => exact hcommit a u
  | hung u => rfl
  | fatal e u => rfl

theorem unlessFaulted_withCarry {body : State → Host.Outcome State Fault Refusal}
    (hbody : body (withCarry c s) = mapNext (withCarry c) (body s)) :
    unlessFaulted (withCarry c s) body = mapNext (withCarry c) (unlessFaulted s body) := by
  unfold unlessFaulted
  rw [withCarry_faulted]
  split
  · rfl
  · exact hbody

theorem whenBound_withCarry {body : State → Host.Outcome State Fault Refusal}
    (hbody : body (withCarry c s) = mapNext (withCarry c) (body s)) :
    whenBound (withCarry c s) body = mapNext (withCarry c) (whenBound s body) := by
  refine unlessFaulted_withCarry c s ?_
  rw [withCarry_bound]
  split
  · exact hbody
  · rfl

/-- The shifts and the end of an out-class primitive carry the bit through (R130, R134). -/
theorem out_withCarry (xs : List (Word × Nat)) :
    settle (writeShifts xs (drive (drain (withCarry c s)))) (fun _ t => commitOut t)
      = withCarry c (settle (writeShifts xs (drive (drain s))) fun _ t => commitOut t) := by
  have hdrain : drain (withCarry c s) = withCarry c (drain s) := rfl
  rw [hdrain, drive_withCarry, writeShifts_withCarry]
  exact settle_withCarry c _ _ fun _ _ => rfl

/-- A call other than the two reads does the same with another carry bit, and leaves that bit. -/
theorem exec_withCarry {i : Instr} (hin : ∀ n, i ≠ .sequenceIn n) (hpar : ∀ n, i ≠ .sequenceInParity n) :
    exec i (withCarry c s) = mapNext (withCarry c) (exec i s) := by
  cases i with
  | sequenceIn n => exact absurd rfl (hin n)
  | sequenceInParity n => exact absurd rfl (hpar n)
  | sequenceOut v n =>
    simp only [exec, execSequenceOut]
    refine whenBound_withCarry c s ?_
    split
    · exact congrArg Host.Outcome.next (out_withCarry ..)
    · rfl
  | sequenceOutParity v n =>
    simp only [exec, execSequenceOutParity]
    refine whenBound_withCarry c s ?_
    split
    · exact congrArg Host.Outcome.next (out_withCarry ..)
    · rfl
  | setDivisor v =>
    simp only [exec, execSetDivisor]
    exact whenBound_withCarry c s rfl
  | init =>
    simp only [exec, execInit]
    exact unlessFaulted_withCarry c s rfl
  | drain =>
    simp only [exec, execDrain]
    exact unlessFaulted_withCarry c s rfl
  | setDiv v =>
    simp only [exec, execSetDiv]
    exact unlessFaulted_withCarry c s rfl
  | drive =>
    simp only [exec, execDrive]
    refine unlessFaulted_withCarry c s ?_
    rw [drive_withCarry]
    rfl
  | sense =>
    simp only [exec, execSense]
    refine unlessFaulted_withCarry c s ?_
    rw [sense_withCarry]
    rfl
  | shiftIn n =>
    simp only [exec, execShiftIn]
    refine unlessFaulted_withCarry c s ?_
    rw [withCarry_dir, withCarry_cfg]
    split
    · rfl
    · rw [shiftIn_withCarry]
      exact congrArg Host.Outcome.next (settle_withCarry c _ _ fun _ _ => rfl)
  | shiftOut b n =>
    simp only [exec, execShiftOut]
    refine unlessFaulted_withCarry c s ?_
    rw [withCarry_dir, withCarry_cfg]
    split
    · rfl
    · rw [shiftOut_withCarry]
      exact congrArg Host.Outcome.next (settle_withCarry c _ _ fun _ _ => rfl)

/-- `sequence_in` that completes overwrites the carry; one that does not leaves it (R121, R122). -/
theorem exec_sequenceIn_withCarry {n : Nat} {t : State} (h : exec (.sequenceIn n) s = .next t) :
    ∃ t', exec (.sequenceIn n) (withCarry c s) = .next t'
      ∧ (t' = t ∨ t' = withCarry c t ∧ (t.busy = true ∨ t.session.faulted = true)) := by
  obtain ⟨hf, rfl⟩ | ⟨hf, hb, rfl⟩ | ⟨⟨hf, hb⟩, h⟩ := whenBound_eq_next (show execSequenceIn n s = .next t from h)
  · exact ⟨_, exec_of_faulted (s := withCarry c s) hf _, .inr ⟨rfl, .inr hf⟩⟩
  · exact ⟨_, exec_of_not_bound (s := withCarry c s) rfl nofun hf hb, .inr ⟨rfl, .inr rfl⟩⟩
  · rw [exec, execSequenceIn, whenBound_of_bound (s := withCarry c s) hf hb]
    split at h
    · rename_i hn
      rw [if_pos hn, sense_withCarry, shiftIn_withCarry]
      obtain ⟨r, u, hp, rfl⟩ | ⟨u, hp, rfl⟩ | ⟨e, u, hp, rfl⟩ := settle_cases h <;>
        rw [withCarry_carryValid, hp]
      · exact ⟨_, rfl, .inl rfl⟩
      · exact ⟨_, rfl, .inr ⟨rfl, .inl rfl⟩⟩
      · exact ⟨_, rfl, .inr ⟨rfl, .inr rfl⟩⟩
    · rename_i hn
      obtain rfl := Host.Outcome.next.inj h
      exact ⟨_, if_neg hn, .inr ⟨rfl, .inr rfl⟩⟩

end
end Sys2Proof.Machine
end

section
/-! The statements about what a call may write and what it may read. -/

open Sys2Proof Sys2Proof.Machine

/-- Settles O54: the clauses of `WritesOnly`. -/
theorem onlyTheListedCallsWriteAField : Obligations.OnlyTheListedCallsWriteAField := by
  intro i s t hc h
  obtain ⟨cfg, carry, results, binding, clkdiv, carryValid, line, shifter⟩ := writesOnly_of_exec hc h
  exact ⟨cfg, carry, results, binding, clkdiv, carryValid, line, shifter⟩

/-- Settles O36: the bits sampled reach the carry and RESULT only. -/
theorem ackValueDecidesNothing : Obligations.AckValueDecidesNothing := by
  intro s t other n h
  have hs : Retargeted s { s with target := other } := ⟨other, s.wire, rfl, rfl⟩
  obtain ⟨t', hx, ⟨calls, config, cycles, busy, upc, shifts, polled⟩, hses⟩ := hs.exec_sequenceIn h
  exact ⟨t', hx, hses, calls, config, cycles, busy, upc, shifts, polled⟩

/-- Settles O39: the bits sampled reach RESULT and PERR only. -/
theorem parityMismatchIsOnlyData : Obligations.ParityMismatchIsOnlyData := by
  intro s t other n h
  have hs : Retargeted s { s with target := other } := ⟨other, s.wire, rfl, rfl⟩
  obtain ⟨t', hx, ⟨calls, config, cycles, busy, upc, shifts, polled⟩, hses⟩ := hs.exec_sequenceInParity h
  exact ⟨t', hx, hses, calls, config, cycles, busy, upc, shifts, polled⟩

/-- Settles O49: `sequence_in` overwrites the carry or leaves it, and the other calls carry it through. -/
theorem carryValueIsReadByTheParityReadOnly : Obligations.CarryValueIsReadByTheParityReadOnly := by
  intro i s t c hpar h
  by_cases hin : ∃ n, i = .sequenceIn n
  · obtain ⟨n, rfl⟩ := hin
    obtain ⟨t', hx, rfl | ⟨rfl, hends⟩⟩ := exec_sequenceIn_withCarry c s h
    · exact ⟨_, hx, rfl, fun _ _ _ => rfl⟩
    · exact ⟨_, hx, rfl, fun _ hb hf => by simp [hb, hf] at hends⟩
  · have hx := exec_withCarry c s (fun n hn => hin ⟨n, hn⟩) hpar
    rw [h] at hx
    exact ⟨_, hx, rfl, fun hin' => absurd hin' hin⟩

end
